-- ==== Sys2Proof/Word.lean ====
section
/-! DEFINITION. The two word sizes of the core: 4-bit registers and fields, 8-bit instruction words (R6, R10, R45). -/

namespace Sys2Proof

/-- A register value, an opcode field or an operand field: 4 bits, unsigned (R6, R10, R46). -/
abbrev Nibble := BitVec 4

/-- An instruction word, the contents of one slot: 8 bits (R30, R45). -/
abbrev Byte := BitVec 8

end Sys2Proof
end

