-- ==== Sys2Proof/Config.lean ====
section
/-! DEFINITION. The parameters of R4: the choices a run is launched with, their canonical values, and the condition on
the width of a pc register. No value of this hardware is left open, so there is no free value here (part 1 of
93_implementation_defined.md). -/

namespace Sys2Proof

/-- `UNKNOWN_OPCODE_POLICY` (R4, R122): what an opcode outside 0x0 to 0x8 does. -/
inductive UnknownOpcodePolicy where
  /-- `continue`, the default and normative value: warn and fall through (R120). -/
  | continues
  /-- `fatal`, the alternative of R122 with the meaning decision D12 gives it: nothing is committed, the core stops. -/
  | fatal
  deriving DecidableEq, Repr

/-- `TRACE_SNAPSHOT_POINT` (R4, R82): where an optional trace record samples registers and flags.
Read by no rule; an argument of the observation `Machine.traceRecord` only. -/
inductive TraceSnapshotPoint where
  | before
  | after
  deriving DecidableEq, Repr

/-- The canonical value of `MEM_SIZE` (R4). -/
def Config.canonicalMemSize : Nat := 9

/-- The canonical value of `PC_WIDTH` (R4). -/
def Config.canonicalPcWidth : Nat := 4

/-- The condition R4 and R17 put on `PC_WIDTH`: a pc register of `width` bits never wraps. -/
abbrev Config.PcWidthFits (width memSize : Nat) : Prop := max 15 memSize < 2 ^ width

end Sys2Proof
end

