-- ==== Sys2Proof/Syntax.lean ====
section
/-! DEFINITION. The instructions: one constructor per row of spec/opcode_table.json (R48), named by the short names of
R8. Every constructor carries the word's operand field `k`, also where the executor ignores it (R49), so that an
instruction determines its word and back. -/

namespace Sys2Proof

/-- The rows of the opcode map (R48). The formats of R46: `N` (operand ignored), `I` (4-bit immediate), `U` (unknown). -/
inductive Instr where
  /-- 0x0 `RA=0`, format N: `k` is ignored (R49, R90). -/
  | clra (k : Nibble)
  /-- 0x1 `RB=1`, format N: `k` is ignored (R49, R91). -/
  | oneb (k : Nibble)
  /-- 0x2 `RO=RA`, format N: `k` is ignored (R49, R92). -/
  | outa (k : Nibble)
  /-- 0x3 `RB=RA+RB`, format N: `k` is ignored (R49, R103). -/
  | addb (k : Nibble)
  /-- 0x4 `JC=0`, format N: `k` is ignored and is no target (R49, R110). -/
  | noj (k : Nibble)
  /-- 0x5 `RA=<imm>`, format I: `k` is the value loaded (R47, R93). -/
  | lda (k : Nibble)
  /-- 0x6 `RB=<imm>`, format I: `k` is the value loaded (R47, R94). -/
  | ldb (k : Nibble)
  /-- 0x7 `JC=<imm>`, format I: `k` is the absolute target (R47, R111). -/
  | jc (k : Nibble)
  /-- 0x8 `J=<imm>`, format I: `k` is the absolute target (R47, R112). -/
  | j (k : Nibble)
  /-- 0x9, unknown opcode, format U (R120); `k` is part of the word the warning reports. -/
  | unk9 (k : Nibble)
  /-- 0xA, unknown opcode, format U (R120). -/
  | unkA (k : Nibble)
  /-- 0xB, unknown opcode, format U (R120). -/
  | unkB (k : Nibble)
  /-- 0xC, unknown opcode, format U (R120). -/
  | unkC (k : Nibble)
  /-- 0xD, unknown opcode, format U (R120). -/
  | unkD (k : Nibble)
  /-- 0xE, unknown opcode, format U (R120). -/
  | unkE (k : Nibble)
  /-- 0xF, unknown opcode, format U (R120). -/
  | unkF (k : Nibble)
  deriving DecidableEq, Repr

end Sys2Proof
end

