-- ==== Sys2Proof/Machine/State.lean ====
section
/-! DEFINITION. The machine's state as plain data (10_state.md), the reasons a step can stop, and the state after
reset. -/

namespace Sys2Proof.Machine

open Sys2Proof

/-- The instruction memory (R21, R30): the populated slots and their words, slots strictly rising. -/
abbrev Memory := List Host.Cell

/-- What a slot no image populated reads as: nothing (DESIGN CHOICE, safe, log entry 3: R21 has no notion of an
unpopulated slot and R153 no default image). -/
def Memory.unlisted : Option Byte := none

/-- The canonical form of a memory: slots strictly rising, so no slot is listed twice. An unlisted slot reads as no
word, so no entry can equal what an unlisted slot reads as. -/
def Memory.wf : Memory → Bool
  | [] => true
  | [_] => true
  | c :: d :: rest => decide (c.1 < d.1) && Memory.wf (d :: rest)

/-- The event `UnknownOpcode(pc, w)` (R131): the slot of the offending word, before the PC update, and the word. -/
structure Warning where
  slot : Nat
  word : Byte
  deriving DecidableEq, Repr

/-- The state: the six architectural elements of R10 to R19, then what the run was launched with (R4; fixed for a run,
log entry 1) and the write-only log of warnings beside the state (R121, log entry 5). -/
structure State where
  /-- `x[RA]` (R11). -/
  ra : Nibble
  /-- `x[RB]` (R12). -/
  rb : Nibble
  /-- `x[RO]`, the write-only output register (R13). -/
  ro : Nibble
  /-- The carry/borrow flag (R19). -/
  carry : Bool
  /-- The zero flag (R19). -/
  zero : Bool
  /-- The slot index of the next instruction (R16): a natural number, never wrapping (R17). -/
  pc : Nat
  /-- `IMEM` (R21): read-only to every step. -/
  imem : Memory
  /-- `MEM_SIZE` (R4). -/
  memSize : Nat
  /-- `UNKNOWN_OPCODE_POLICY` (R4). -/
  policy : UnknownOpcodePolicy
  /-- The warnings emitted so far, oldest first (R121). -/
  warnings : List Warning
  deriving DecidableEq, Repr

/-- Why a step stops the machine. -/
inductive Fault where
  /-- Raised by `fetch` when the core is Running and no image populated the slot at pc. No launched machine has such a
  slot (R21, R151, R153). Safe: the machine stops where the spec describes no run (log entry 3). -/
  | unpopulatedSlot (slot : Nat)
  /-- Raised by the seven unknown opcodes under the launch choice `UNKNOWN_OPCODE_POLICY = fatal` only (R122, D12): the
  terminal fault state distinct from Halted, nothing committed, carrying the warning's slot and word. Safe: under the
  normative policy `continues` it is never raised (log entry 6). -/
  | unknownOpcodeFatal (slot : Nat) (word : Byte)
  deriving DecidableEq, Repr

/-- Why an instruction has no meaning. -/
inductive Refusal where
  /-- An arm of `exec` without a meaning yet. Safe: nothing is claimed. No arm of this model raises it. -/
  | notModelled (mnemonic : String)
  deriving DecidableEq, Repr

/-- Right after reset (R24, R150): registers 0, flags false, pc 0. Nothing is loaded: an image comes from outside
(`launch`); `memSize` and `policy` have their canonical values of R4 (log entry 2). -/
def State.reset : State where
  ra := 0
  rb := 0
  ro := 0
  carry := false
  zero := false
  pc := 0
  imem := []
  memSize := Config.canonicalMemSize
  policy := .continues
  warnings := []

end Sys2Proof.Machine
end

