-- ==== Sys2Proof/Machine/Flags.lean ====
section
/-! DEFINITION. The ALU functions and the flag rule (42_alu.md). Operands are converted to exact integers, the result
is computed exactly and narrowed at the end. -/

namespace Sys2Proof.Machine

open Sys2Proof

/-- `add4` (R100): the sum modulo 16, and whether it exceeds 15. There is no carry-in. -/
def add4 (a b : Nibble) : Nibble × Bool :=
  let sum := a.toNat + b.toNat
  (BitVec.ofNat 4 sum, decide (15 < sum))

/-- `sub4` (R101): the difference modulo 16, and whether a borrow is needed. No instruction reaches it (R105). -/
def sub4 (a b : Nibble) : Nibble × Bool :=
  let diff : Int := (a.toNat : Int) - (b.toNat : Int)
  (BitVec.ofInt 4 diff, decide (diff < 0))

/-- The input that selects the ALU's function (R105); the decoder drives it to `add` only (R76). -/
inductive AluOp where
  | add
  | sub
  deriving DecidableEq, Repr

/-- The ALU block (R70, R105). -/
def alu : AluOp → Nibble → Nibble → Nibble × Bool
  | .add, a, b => add4 a b
  | .sub, a, b => sub4 a b

/-- The flag rule (R102): an ALU invocation overwrites both flags from its own outcome. -/
def State.setFlags (s : State) (outcome : Nibble × Bool) : State :=
  { s with carry := outcome.2, zero := outcome.1 == 0 }

end Sys2Proof.Machine
end

