-- ==== Sys2Proof/WellFormed.lean ====
section
/-! DEFINITION. Which instructions the hardware's own encoder writes. The executor accepts every word, so neither
check is a condition for running (R49, R52, R58). Operands are 4-bit by type, so an immediate outside 0..15 (R56)
cannot be represented. -/

namespace Sys2Proof

/-- Well-formed: the operand field holds what the canonical word of the row has, which is 0000 for the five
operand-less instructions (R50) and any value for the immediate formats and the unknown opcodes (R46, R48, R51). -/
def Instr.wellFormed : Instr → Bool
  | .clra k => k == 0
  | .oneb k => k == 0
  | .outa k => k == 0
  | .addb k => k == 0
  | .noj k => k == 0
  | .lda _ => true
  | .ldb _ => true
  | .jc _ => true
  | .j _ => true
  | .unk9 _ => true
  | .unkA _ => true
  | .unkB _ => true
  | .unkC _ => true
  | .unkD _ => true
  | .unkE _ => true
  | .unkF _ => true

/-- Assemblable: some mnemonic line yields the instruction's word (R58). The fixed forms win (R57), so `RA=<imm>` with
0, `RB=<imm>` with 1 and `JC=<imm>` with 0 have no mnemonic, and no unknown opcode has one (R61). -/
def Instr.assemblable : Instr → Bool
  | .clra k => k == 0
  | .oneb k => k == 0
  | .outa k => k == 0
  | .addb k => k == 0
  | .noj k => k == 0
  | .lda k => k != 0
  | .ldb k => k != 1
  | .jc k => k != 0
  | .j _ => true
  | .unk9 _ => false
  | .unkA _ => false
  | .unkB _ => false
  | .unkC _ => false
  | .unkD _ => false
  | .unkE _ => false
  | .unkF _ => false

/-- The unknown opcodes 0x9 to 0xF (R51, R120). -/
def Instr.isUnknown : Instr → Bool
  | .unk9 _ | .unkA _ | .unkB _ | .unkC _ | .unkD _ | .unkE _ | .unkF _ => true
  | .clra _ | .oneb _ | .outa _ | .addb _ | .noj _ | .lda _ | .ldb _ | .jc _ | .j _ => false

/-- The two instructions whose operand can become the pc (R48, R78). -/
def Instr.isJump : Instr → Bool
  | .jc _ | .j _ => true
  | .clra _ | .oneb _ | .outa _ | .addb _ | .noj _ | .lda _ | .ldb _ => false
  | .unk9 _ | .unkA _ | .unkB _ | .unkC _ | .unkD _ | .unkE _ | .unkF _ => false

end Sys2Proof
end

