-- ==== Sys2Proof/Decode.lean ====
section
/-! DEFINITION. Decoding, total on the 256 words (R52) and on any list of bytes, and the encoder written from the same
map (R46, R48). -/

namespace Sys2Proof

/-- `op = w[7:4]` (R46, R74). -/
def opcodeField (w : Byte) : Nibble := w.extractLsb' 4 4

/-- `k = w[3:0]` (R46, R74). -/
def operandField (w : Byte) : Nibble := w.extractLsb' 0 4

/-- `w = 16*op + k` (R46). -/
def wordOf (op k : Nibble) : Byte := op ++ k

/-- The row of the opcode map that an opcode selects, its bits 7 down to 4 read as in the word column of R48. -/
def instrOf (op k : Nibble) : Instr :=
  match op.getLsbD 3, op.getLsbD 2, op.getLsbD 1, op.getLsbD 0 with
  | false, false, false, false => .clra k
  | false, false, false, true => .oneb k
  | false, false, true, false => .outa k
  | false, false, true, true => .addb k
  | false, true, false, false => .noj k
  | false, true, false, true => .lda k
  | false, true, true, false => .ldb k
  | false, true, true, true => .jc k
  | true, false, false, false => .j k
  | true, false, false, true => .unk9 k
  | true, false, true, false => .unkA k
  | true, false, true, true => .unkB k
  | true, true, false, false => .unkC k
  | true, true, false, true => .unkD k
  | true, true, true, false => .unkE k
  | true, true, true, true => .unkF k

/-- Decode one word by its opcode alone (R49); it cannot fail (R52, R74). -/
def decode (w : Byte) : Instr := instrOf (opcodeField w) (operandField w)

/-- Why a list of bytes holds no instruction. -/
inductive DecodeError where
  /-- There is no byte to decode. Raised by `decodeBytes` only, never in a step. Safe: nothing runs. -/
  | noWord
  deriving DecidableEq, Repr

/-- Decode the instruction at the head of a list of bytes: every instruction is one word (R45), so the rest of the
list is what follows it. -/
def decodeBytes : List Byte → Except DecodeError (Instr × List Byte)
  | [] => .error .noWord
  | w :: rest => .ok (decode w, rest)

/-- The opcode of an instruction's row (R48). -/
def Instr.opcode : Instr → Nibble
  | .clra _ => 0x0
  | .oneb _ => 0x1
  | .outa _ => 0x2
  | .addb _ => 0x3
  | .noj _ => 0x4
  | .lda _ => 0x5
  | .ldb _ => 0x6
  | .jc _ => 0x7
  | .j _ => 0x8
  | .unk9 _ => 0x9
  | .unkA _ => 0xA
  | .unkB _ => 0xB
  | .unkC _ => 0xC
  | .unkD _ => 0xD
  | .unkE _ => 0xE
  | .unkF _ => 0xF

/-- The operand field an instruction carries (R46). -/
def Instr.operand : Instr → Nibble
  | .clra k | .oneb k | .outa k | .addb k | .noj k | .lda k | .ldb k | .jc k | .j k => k
  | .unk9 k | .unkA k | .unkB k | .unkC k | .unkD k | .unkE k | .unkF k => k

/-- The word of an instruction (R46, R48). -/
def encode (i : Instr) : Byte := wordOf i.opcode i.operand

/-- The instruction the decoder reads from a table word: bits above `nbits` are 0, and an instruction has 8 bits (R45),
so no wider row is one. -/
def decodeTableWord (nbits w : Nat) : Option Instr :=
  if nbits ≤ 8 then
    match decodeBytes [BitVec.ofNat 8 (w % 2 ^ nbits)] with
    | .ok (i, _) => some i
    | .error _ => none
  else none

end Sys2Proof
end

