-- ==== Sys2Proof/Machine/Operands.lean ====
section
/-! DEFINITION. The operand forms: the 4-bit operand field as a value and as a jump target (R47). The ignored operand
of R49 needs no form: the meanings that ignore it do not mention it. -/

namespace Sys2Proof.Machine

open Sys2Proof

/-- The operand as the value loaded: not extended, not scaled (R47). -/
def immediate (k : Nibble) : Nibble := k

/-- The operand as a jump target: the absolute slot index `zext(k)`, 0 to 15 (R47, R113, R114). -/
def jumpTarget (k : Nibble) : Nat := k.toNat

end Sys2Proof.Machine
end

