-- ==== Sys2Proof/Machine/Ops.lean ====
section
/-! DEFINITION. The named operations: over the instruction memory, the registers and the pc, fetch, reset, and what an
unknown opcode does. This hardware takes no exception and returns from none (R134 to R139), so there is no exception
entry; the one shared event is the warning (R131). -/

namespace Sys2Proof.Machine

open Sys2Proof

/-- `IMEM(a)`, where the slot is populated (R31). -/
def Memory.read : Memory → Nat → Option Byte
  | [], _ => Memory.unlisted
  | c :: rest, a => if c.1 = a then some c.2 else Memory.read rest a

/-- Populate one slot, from outside the core: no step does (R21, R36). Keeps the canonical form. -/
def Memory.populate : Memory → Nat → Byte → Memory
  | [], a, w => [(a, w)]
  | c :: rest, a, w =>
    if a < c.1 then (a, w) :: c :: rest
    else if a = c.1 then (a, w) :: rest
    else c :: Memory.populate rest a w

/-- The words of an image in consecutive slots from `start` on (R151, R153). -/
def Memory.ofWords (start : Nat) : List Byte → Memory
  | [] => []
  | w :: rest => (start, w) :: Memory.ofWords (start + 1) rest

/-- Halted iff `pc >= MEM_SIZE` (R20). -/
abbrev State.Halted (s : State) : Prop := s.memSize ≤ s.pc

/-- Running iff `pc < MEM_SIZE` (R20). -/
abbrev State.Running (s : State) : Prop := s.pc < s.memSize

/-- `x[RA] <- v` (R11). -/
def State.setRa (s : State) (v : Nibble) : State := { s with ra := v }

/-- `x[RB] <- v` (R12). -/
def State.setRb (s : State) (v : Nibble) : State := { s with rb := v }

/-- `x[RO] <- v` (R13). -/
def State.setRo (s : State) (v : Nibble) : State := { s with ro := v }

/-- Fall-through, `pc <- pc + 1` (R17, R78). -/
def State.fallThrough (s : State) : State := { s with pc := s.pc + 1 }

/-- Jump taken, `pc <- zext(k)`, unclamped (R17, R18, R78). -/
def State.jumpTo (s : State) (k : Nibble) : State := { s with pc := jumpTarget k }

/-- Emit a warning: it is appended to the log and changes nothing else (R121, R131). -/
def State.warn (s : State) (w : Warning) : State := { s with warnings := s.warnings ++ [w] }

/-- What an opcode outside the table does (R120): under `continues` warn with the slot of the word, before the PC
update, and fall through; under `fatal` commit nothing and stop (R122, D12). -/
def unknownOpcode (op k : Nibble) (s : State) : Host.Outcome State Fault Refusal :=
  match s.policy with
  | .continues => .next (s.warn ⟨s.pc, wordOf op k⟩).fallThrough
  | .fatal => .fault (.unknownOpcodeFatal s.pc (wordOf op k))

/-- Fetch the word in slot pc (R31, R73). Called while Running only. -/
def fetch (s : State) : Except Fault Byte :=
  match s.imem.read s.pc with
  | some w => .ok w
  | none => .error (.unpopulatedSlot s.pc)

/-- Reset applied in any state (R24, R150): fresh registers, flags and pc; the instruction memory and the launch
parameters are not touched; the new run has emitted no warning (log entry 5). -/
def State.applyReset (s : State) : State :=
  { s with ra := 0, rb := 0, ro := 0, carry := false, zero := false, pc := 0, warnings := [] }

/-- Place a table word where the next step fetches it: slot pc holds it, and the memory reaches that slot, so that the
core is Running. Stands for the load of R151 (log entry 2). -/
def State.placeWord (s : State) (nbits w : Nat) : State :=
  { s with
    imem := s.imem.populate s.pc (BitVec.ofNat 8 (w % 2 ^ nbits))
    memSize := max s.memSize (s.pc + 1) }

end Sys2Proof.Machine
end

