-- ==== Sys2Proof/Machine/Alu.lean ====
section
/-! DEFINITION. The add instruction (42_alu.md), the only one that invokes the ALU and the only one that writes a
flag. -/

namespace Sys2Proof.Machine

open Sys2Proof

/-- `RB=RA+RB` (R103): both operands are read before the writes; RB, carry and zero come from `add4`. -/
def execAddb (_k : Nibble) (s : State) : Host.Outcome State Fault Refusal :=
  let outcome := add4 s.ra s.rb
  .next ((s.setRb outcome.1).setFlags outcome).fallThrough

end Sys2Proof.Machine
end

