-- ==== Sys2Proof/Machine/Control.lean ====
section
/-! DEFINITION. The control-transfer instructions (43_control.md): none writes a register or a flag. -/

namespace Sys2Proof.Machine

open Sys2Proof

/-- `JC=0` (R110), the architected no-op: the operand is no target and carry is not tested. -/
def execNoj (_k : Nibble) (s : State) : Host.Outcome State Fault Refusal :=
  .next s.fallThrough

/-- `JC=<imm>` (R111): taken iff carry is true before the step; carry is not cleared. -/
def execJc (k : Nibble) (s : State) : Host.Outcome State Fault Refusal :=
  .next (if s.carry then s.jumpTo k else s.fallThrough)

/-- `J=<imm>` (R112). -/
def execJ (k : Nibble) (s : State) : Host.Outcome State Fault Refusal :=
  .next (s.jumpTo k)

end Sys2Proof.Machine
end

