-- ==== Sys2Proof/Machine/RegisterLoad.lean ====
section
/-! DEFINITION. The register load and move instructions (41_register_load.md): each writes one register, no flag, and
falls through. -/

namespace Sys2Proof.Machine

open Sys2Proof

/-- `RA=0` (R90). -/
def execClra (_k : Nibble) (s : State) : Host.Outcome State Fault Refusal :=
  .next (s.setRa 0).fallThrough

/-- `RB=1` (R91): the operand bits do not supply the constant. -/
def execOneb (_k : Nibble) (s : State) : Host.Outcome State Fault Refusal :=
  .next (s.setRb 1).fallThrough

/-- `RO=RA` (R92). -/
def execOuta (_k : Nibble) (s : State) : Host.Outcome State Fault Refusal :=
  .next (s.setRo s.ra).fallThrough

/-- `RA=<imm>` (R93). -/
def execLda (k : Nibble) (s : State) : Host.Outcome State Fault Refusal :=
  .next (s.setRa (immediate k)).fallThrough

/-- `RB=<imm>` (R94). -/
def execLdb (k : Nibble) (s : State) : Host.Outcome State Fault Refusal :=
  .next (s.setRb (immediate k)).fallThrough

end Sys2Proof.Machine
end

