-- ==== Sys2Proof/Machine/Unknown.lean ====
section
/-! DEFINITION. The seven unknown opcodes (44_unknown_opcodes.md): all behave alike (R120) and differ in the word the
warning reports. -/

namespace Sys2Proof.Machine

open Sys2Proof

/-- Opcode 0x9, unknown (R120). -/
def execUnk9 (k : Nibble) (s : State) : Host.Outcome State Fault Refusal :=
  unknownOpcode 0x9 k s

/-- Opcode 0xA, unknown (R120). -/
def execUnkA (k : Nibble) (s : State) : Host.Outcome State Fault Refusal :=
  unknownOpcode 0xA k s

/-- Opcode 0xB, unknown (R120). -/
def execUnkB (k : Nibble) (s : State) : Host.Outcome State Fault Refusal :=
  unknownOpcode 0xB k s

/-- Opcode 0xC, unknown (R120). -/
def execUnkC (k : Nibble) (s : State) : Host.Outcome State Fault Refusal :=
  unknownOpcode 0xC k s

/-- Opcode 0xD, unknown (R120). -/
def execUnkD (k : Nibble) (s : State) : Host.Outcome State Fault Refusal :=
  unknownOpcode 0xD k s

/-- Opcode 0xE, unknown (R120). -/
def execUnkE (k : Nibble) (s : State) : Host.Outcome State Fault Refusal :=
  unknownOpcode 0xE k s

/-- Opcode 0xF, unknown (R120). -/
def execUnkF (k : Nibble) (s : State) : Host.Outcome State Fault Refusal :=
  unknownOpcode 0xF k s

end Sys2Proof.Machine
end

