-- ==== Sys2Proof/Machine/Dispatch.lean ====
section
/-! DEFINITION. Dispatch by opcode (R75): one arm per constructor. -/

namespace Sys2Proof.Machine

open Sys2Proof

def exec (i : Instr) (s : State) : Host.Outcome State Fault Refusal :=
  match i with
  | .clra k => Sys2Proof.Machine.execClra k s
  | .oneb k => Sys2Proof.Machine.execOneb k s
  | .outa k => Sys2Proof.Machine.execOuta k s
  | .addb k => Sys2Proof.Machine.execAddb k s
  | .noj k => Sys2Proof.Machine.execNoj k s
  | .lda k => Sys2Proof.Machine.execLda k s
  | .ldb k => Sys2Proof.Machine.execLdb k s
  | .jc k => Sys2Proof.Machine.execJc k s
  | .j k => Sys2Proof.Machine.execJ k s
  | .unk9 k => Sys2Proof.Machine.execUnk9 k s
  | .unkA k => Sys2Proof.Machine.execUnkA k s
  | .unkB k => Sys2Proof.Machine.execUnkB k s
  | .unkC k => Sys2Proof.Machine.execUnkC k s
  | .unkD k => Sys2Proof.Machine.execUnkD k s
  | .unkE k => Sys2Proof.Machine.execUnkE k s
  | .unkF k => Sys2Proof.Machine.execUnkF k s

end Sys2Proof.Machine
end

