-- ==== Sys2Proof/Machine/Step.lean ====
section
/-! DEFINITION. One step (R72, R86): fetch, decode, dispatch, PC update. The fetch, the decoder and the meanings stand
in Ops.lean, Decode.lean and the families; this file only calls them. -/

namespace Sys2Proof.Machine

open Sys2Proof

/-- One step request. In Halted it is the identity (R81, log entry 7); in Running the word in slot pc is fetched,
decoded and executed (R73 to R78). -/
def step (s : State) : Host.Outcome State Fault Refusal :=
  if s.Halted then .next s
  else
    match fetch s with
    | .ok w => exec (decode w) s
    | .error f => .fault f

/-- The state with a table word placed where the next step fetches. -/
def State.withFetchWord (s : State) (nbits w : Nat) : State := s.placeWord nbits w

end Sys2Proof.Machine
end

