-- ==== Sys2Proof/Machine/ControlTable.lean ====
section
/-! DEFINITION. The hardware decomposition (R70): the decoder outputs of R76 as a function of the opcode, and the
datapath they drive. An equivalent realisation of R75 and R78, not a second meaning: `exec` does not use it. A dash of
the table ("don't care") is `none` (log entry 14). -/

namespace Sys2Proof.Machine

open Sys2Proof

/-- `ra_src`: the constant 0 or the operand. -/
inductive RaSource where
  | zero
  | imm
  deriving DecidableEq, Repr

/-- `rb_src`: the constant 1, the operand or the ALU result. -/
inductive RbSource where
  | one
  | imm
  | alu
  deriving DecidableEq, Repr

/-- `jump`: the jump kind. -/
inductive JumpKind where
  | never
  | ifCarry
  | always
  deriving DecidableEq, Repr

/-- One row of the control table (R76). -/
structure ControlRow where
  raWe : Bool := false
  raSrc : Option RaSource := none
  rbWe : Bool := false
  rbSrc : Option RbSource := none
  roWe : Bool := false
  flagsWe : Bool := false
  aluOp : Option AluOp := none
  jump : JumpKind := .never
  unknown : Bool := false
  deriving DecidableEq, Repr

/-- The control table (R76), by the value of the opcode: a pure function of `op`. -/
def controlRow (op : Nibble) : ControlRow :=
  match op.toNat with
  | 0 => { raWe := true, raSrc := some .zero }
  | 1 => { rbWe := true, rbSrc := some .one }
  | 2 => { roWe := true }
  | 3 => { rbWe := true, rbSrc := some .alu, flagsWe := true, aluOp := some .add }
  | 4 => {}
  | 5 => { raWe := true, raSrc := some .imm }
  | 6 => { rbWe := true, rbSrc := some .imm }
  | 7 => { jump := .ifCarry }
  | 8 => { jump := .always }
  | _ => { unknown := true }

/-- The ALU's outcome in the datapath; where `alu_op` is a don't-care no outcome is taken. -/
def ControlRow.outcome (c : ControlRow) (s : State) : Option (Nibble × Bool) :=
  c.aluOp.map fun op => alu op s.ra s.rb

/-- The value on RA's write port. -/
def ControlRow.raValue (c : ControlRow) (k : Nibble) : Option Nibble :=
  c.raSrc.map fun
    | .zero => 0
    | .imm => k

/-- The value on RB's write port. -/
def ControlRow.rbValue (c : ControlRow) (k : Nibble) (s : State) : Option Nibble :=
  c.rbSrc.bind fun
    | .one => some 1
    | .imm => some k
    | .alu => (c.outcome s).map Prod.fst

/-- Whether the jump is taken (R78). -/
def ControlRow.taken (c : ControlRow) (s : State) : Bool :=
  match c.jump with
  | .never => false
  | .ifCarry => s.carry
  | .always => true

/-- The next state the datapath forms from a control row and the fetched word: every read sees the state before the
step (R77), and a write port with no value writes nothing. -/
def datapath (c : ControlRow) (w : Byte) (s : State) : State :=
  let k := operandField w
  { s with
    ra := if c.raWe then (c.raValue k).getD s.ra else s.ra
    rb := if c.rbWe then (c.rbValue k s).getD s.rb else s.rb
    ro := if c.roWe then s.ra else s.ro
    carry := if c.flagsWe then ((c.outcome s).map Prod.snd).getD s.carry else s.carry
    zero := if c.flagsWe then ((c.outcome s).map fun r => r.1 == 0).getD s.zero else s.zero
    pc := if c.taken s then jumpTarget k else s.pc + 1
    warnings := if c.unknown then s.warnings ++ [⟨s.pc, w⟩] else s.warnings }

end Sys2Proof.Machine
end

