-- ==== Sys2Proof/Machine/Assembler.lean ====
section
/-! DEFINITION. The encoding contract of the assembler and the text image format (R55 to R65): which word each
mnemonic line names, and which word each image line is. Text is a list of characters. -/

namespace Sys2Proof.Machine

open Sys2Proof

/-- One line of text, without its newline. -/
abbrev Line := List Char

/-- The encoder's only failure (R60, R130). -/
inductive EncodeError where
  /-- Raised by `encodeLine`: no pattern matches, or the immediate is not a decimal integer 0 to 15. Safe: no word. -/
  | invalidInstruction
  deriving DecidableEq, Repr

/-- Leading and trailing whitespace trimmed before matching (R55, log entry 11). -/
def trim (l : Line) : Line :=
  ((l.dropWhile Char.isWhitespace).reverse.dropWhile Char.isWhitespace).reverse

/-- The value of a decimal digit: how far the character stands after `0`, where it is one of `0` to `9` (R56). -/
def digitValue (c : Char) : Option Nat :=
  if c.isDigit then some (c.toNat - '0'.toNat) else none

/-- The character of a digit's value. -/
def digitText (n : Nat) : Char := Char.ofNat ('0'.toNat + n)

/-- The decimal immediate of R56 and R59: `0`, or a digit 1 to 9 followed by at most one digit, value at most 15. -/
def parseImm : Line → Option Nibble
  | [d] => (digitValue d).map (BitVec.ofNat 4)
  | [d, e] =>
    match digitValue d, digitValue e with
    | some x, some y => if x ≠ 0 ∧ 10 * x + y ≤ 15 then some (BitVec.ofNat 4 (10 * x + y)) else none
    | _, _ => none
  | _ => none

/-- The rest of a line after a pattern's fixed part, if it starts with it. -/
def afterPattern : Line → Line → Option Line
  | [], l => some l
  | _ :: _, [] => none
  | p :: ps, c :: cs => if p = c then afterPattern ps cs else none

/-- An immediate pattern: its fixed part, then a decimal immediate. -/
def immPattern (fixed : Line) (make : Nibble → Instr) (l : Line) : Option Instr :=
  ((afterPattern fixed l).bind parseImm).map make

/-- The nine patterns of R56, the fixed forms before the immediate ones (R57, log entry 12); the operand-less forms get
operand 0000 (R50, log entry 13). -/
def matchLine (l : Line) : Option Instr :=
  if l = ['R', 'A', '=', '0'] then some (.clra 0)
  else if l = ['R', 'B', '=', '1'] then some (.oneb 0)
  else if l = ['R', 'O', '=', 'R', 'A'] then some (.outa 0)
  else if l = ['R', 'B', '=', 'R', 'A', '+', 'R', 'B'] then some (.addb 0)
  else if l = ['J', 'C', '=', '0'] then some (.noj 0)
  else
    (immPattern ['R', 'A', '='] .lda l).or <|
    (immPattern ['R', 'B', '='] .ldb l).or <|
    (immPattern ['J', 'C', '='] .jc l).or <|
    immPattern ['J', '='] .j l

/-- `encode(mnemonic)` (R56, R60). -/
def encodeLine (l : Line) : Except EncodeError Byte :=
  match matchLine (trim l) with
  | some i => .ok (encode i)
  | none => .error .invalidInstruction

/-- The words of a program text: blank lines give none, and the n-th line that encodes gives the n-th word (R55). A
failing line gives no word and does not stop the rest (R60, log entry 19). -/
def assemble (lines : List Line) : List Byte :=
  lines.filterMap fun l =>
    match encodeLine l with
    | .ok w => some w
    | .error _ => none

/-- The non-blank lines the encoder refuses, for the caller to skip or abort on (R60). -/
def refusedLines (lines : List Line) : List Line :=
  lines.filter fun l =>
    match encodeLine l with
    | .ok _ => false
    | .error _ => trim l ≠ []

/-- The decimal numeral of an immediate, as R59 writes it: one digit, or two of which the first is 1. -/
def immText (k : Nibble) : Line :=
  if k.toNat < 10 then [digitText k.toNat] else ['1', digitText (k.toNat - 10)]

/-- An instruction's pattern of R48 with its operand filled in. It is not always the instruction's mnemonic: `JC=<imm>`
with 0 filled in reads `JC=0`, which names another word (R57, R62). The unknown opcodes have no pattern (R61). -/
def patternText : Instr → Option Line
  | .clra _ => some ['R', 'A', '=', '0']
  | .oneb _ => some ['R', 'B', '=', '1']
  | .outa _ => some ['R', 'O', '=', 'R', 'A']
  | .addb _ => some ['R', 'B', '=', 'R', 'A', '+', 'R', 'B']
  | .noj _ => some ['J', 'C', '=', '0']
  | .lda k => some (['R', 'A', '='] ++ immText k)
  | .ldb k => some (['R', 'B', '='] ++ immText k)
  | .jc k => some (['J', 'C', '='] ++ immText k)
  | .j k => some (['J', '='] ++ immText k)
  | .unk9 _ | .unkA _ | .unkB _ | .unkC _ | .unkD _ | .unkE _ | .unkF _ => none

/-- The mnemonic line that yields an instruction's word, where there is one (R58): 0x50, 0x61, 0x70, the non-canonical
words and the unknown opcodes have none (R61, R62). -/
def mnemonicText (i : Instr) : Option Line := if i.assemblable then patternText i else none

/-- A binary digit of an image line. -/
def bitChar (b : Bool) : Char := if b then '1' else '0'

/-- The bit a character of an image line stands for, if it is one (R63). -/
def charBit (c : Char) : Option Bool :=
  if c = '0' then some false else if c = '1' then some true else none

/-- The value of a list of bits, most significant first (R64, log entry 10). -/
def bitsValue (bits : List Bool) : Nat := bits.foldl (fun n b => 2 * n + b.toNat) 0

/-- A word of an image before its width is checked: its bits, most significant first (log entry 16). -/
abbrev RawWord := List Bool

/-- The word, where it has exactly 8 bits (R152). -/
def checkWord (r : RawWord) : Option Byte :=
  if r.length = 8 then some (BitVec.ofNat 8 (bitsValue r)) else none

/-- An image line as a raw word, where every character is `0` or `1` (R65). -/
def rawOfLine (l : Line) : Option RawWord := l.mapM charBit

/-- An image line as a word: exactly 8 binary characters, the first is bit 7 (R63, R64, R65). -/
def parseImageLine (l : Line) : Option Byte := (rawOfLine l).bind checkWord

/-- The bits of a word, bit 7 first (R64). -/
def wordBits (w : Byte) : RawWord :=
  [w.getLsbD 7, w.getLsbD 6, w.getLsbD 5, w.getLsbD 4, w.getLsbD 3, w.getLsbD 2, w.getLsbD 1, w.getLsbD 0]

/-- The image line of a word (R63, R64). -/
def imageLine (w : Byte) : Line := (wordBits w).map bitChar

/-- A disassembler's line for an instruction: its mnemonic where it has one, else the image line of its word, which no
pattern matches, so that 0x70 is not printed as `JC=0` (R62; DESIGN CHOICE, log entry 24: the source has no spelling). -/
def listingLine (i : Instr) : Line := (mnemonicText i).getD (imageLine (encode i))

/-- The encoded program format: one line a word, each newline-terminated (R63). -/
def imageText (words : List Byte) : List Char := words.flatMap fun w => imageLine w ++ ['\n']

/-- The lines of a text in which every line is newline-terminated; a text whose last line is not has none (R63, log
entry 16). -/
def textLines : List Char → Option (List Line)
  | [] => some []
  | c :: rest =>
    match textLines rest with
    | none => none
    | some lines =>
      if c = '\n' then some ([] :: lines)
      else
        match lines with
        | [] => none
        | l :: more => some ((c :: l) :: more)

end Sys2Proof.Machine
end

