-- ==== Sys2Proof/Machine/Launch.lean ====
section
/-! DEFINITION. Launching a run (R151 to R153): the image is checked whole, then the core starts at the reset state with
the image in its instruction memory. -/

namespace Sys2Proof.Machine

open Sys2Proof

/-- Why a launch is refused. No step executes and no state is produced (R132, R152). -/
inductive LaunchError where
  /-- `CorruptProgram`: some word of the image is not exactly 8 bits, or some line not exactly 8 binary characters
  (R152). Raised by `launch`, `launchText` and `launchImageText`. Safe: nothing runs. -/
  | corruptProgram
  /-- The image has not exactly `MEM_SIZE` words: a launch R153 gives no meaning to. Raised by `launch`,
  `launchText` and `launchImageText`. Safe: nothing runs (log entry 9). -/
  | imageLength
  deriving DecidableEq, Repr

/-- The state a run starts in: reset, with the image and the launch parameters (R24, R151). -/
def launchState (memSize : Nat) (policy : UnknownOpcodePolicy) (words : List Byte) : State :=
  { State.reset with imem := Memory.ofWords 0 words, memSize := memSize, policy := policy }

/-- Launch with words already checked: the image must have exactly `MEM_SIZE` words (R153). -/
def launchWords (memSize : Nat) (policy : UnknownOpcodePolicy) (words : List Byte) : Except LaunchError State :=
  if words.length = memSize then .ok (launchState memSize policy words) else .error .imageLength

/-- Launch with an image of words of any width: the check covers the whole image (R152). -/
def launch (memSize : Nat) (policy : UnknownOpcodePolicy) (image : List RawWord) : Except LaunchError State :=
  match image.mapM checkWord with
  | some words => launchWords memSize policy words
  | none => .error .corruptProgram

/-- Launch with a text image, one line a word (R63, R65, R152). -/
def launchText (memSize : Nat) (policy : UnknownOpcodePolicy) (lines : List Line) : Except LaunchError State :=
  match lines.mapM parseImageLine with
  | some words => launchWords memSize policy words
  | none => .error .corruptProgram

/-- Launch with the encoded program as one text, its lines newline-terminated (R63). -/
def launchImageText (memSize : Nat) (policy : UnknownOpcodePolicy) (text : List Char) : Except LaunchError State :=
  match textLines text with
  | some lines => launchText memSize policy lines
  | none => .error .corruptProgram

end Sys2Proof.Machine
end

