-- ==== Sys2Proof/Machine/Ports.lean ====
section
/-! DEFINITION. What the host can do between steps and what it sees (R71, R82, R154). -/

namespace Sys2Proof.Machine

open Sys2Proof

/-- The outputs of R71. -/
structure Ports where
  iaddr : Nat
  ra : Nibble
  rb : Nibble
  ro : Nibble
  carry : Bool
  zero : Bool
  halted : Bool
  warnUnknown : Bool
  deriving DecidableEq, Repr

/-- The word the next step executes: there is one iff the core is Running and the slot is populated (R31). -/
def State.fetched (s : State) : Option Byte :=
  if s.Halted then none else s.imem.read s.pc

/-- The outputs while `rst` and `stepRequest` are on the inputs: `warn_unknown` is true during a step whose opcode is
unknown (R71, R131). DESIGN CHOICE (log entry 14): with both inputs asserted `warn_unknown` is false, since reset
dominates (R137) and `hostCycle` then takes no step; the spec does not say what the port shows there. -/
def ports (rst stepRequest : Bool) (s : State) : Ports where
  iaddr := s.pc
  ra := s.ra
  rb := s.rb
  ro := s.ro
  carry := s.carry
  zero := s.zero
  halted := decide s.Halted
  warnUnknown := !rst && stepRequest && (s.fetched.map fun w => (decode w).isUnknown).getD false

/-- One action of the host (R71, R154): reset dominates (R137); a step request steps; without either the state is held
(R147). -/
def hostCycle (rst stepRequest : Bool) (s : State) : Host.Outcome State Fault Refusal :=
  if rst then .next s.applyReset
  else if stepRequest then step s
  else .next s

/-- The optional trace record of R82. -/
structure TraceRecord where
  pc : Nat
  instructionWord : Byte
  ra : Nibble
  rb : Nibble
  ro : Nibble
  carry : Bool
  zero : Bool
  deriving DecidableEq, Repr

/-- A record with the fetch slot and word of a step and the registers and flags of a state. -/
def TraceRecord.of (pc : Nat) (w : Byte) (s : State) : TraceRecord :=
  { pc := pc, instructionWord := w, ra := s.ra, rb := s.rb, ro := s.ro, carry := s.carry, zero := s.zero }

/-- The record of the step a state is about to take, for either sampling point (R82, log entry 15): an observation that
no rule reads. DESIGN CHOICE (log entry 15): a step that stops has no state after it and gives no record sampled there. -/
def traceRecord (point : TraceSnapshotPoint) (s : State) : Option TraceRecord :=
  match s.fetched, point, step s with
  | none, _, _ => none
  | some w, .before, _ => some (.of s.pc w s)
  | some w, .after, .next t => some (.of s.pc w t)
  | some _, .after, .fault _ => none
  | some _, .after, .refused _ => none

end Sys2Proof.Machine
end

