-- ==== Sys2Proof/Machine/Run.lean ====
section
/-! DEFINITION. `runToCompletion` (R83, R87) under the step budget R83 leaves to the caller, with the step count of
R84. The count is the host's, not state (R143). -/

namespace Sys2Proof.Machine

open Sys2Proof

/-- How a run under a budget ends. -/
inductive RunEnd where
  /-- Halted: the final state and the number of steps executed (R84, R87). -/
  | final (s : State) (steps : Nat)
  /-- The budget is used up and the core is still Running: there is no final state (R83, R87). -/
  | outOfBudget (s : State) (steps : Nat)
  /-- A step stopped. DESIGN CHOICE (log entry 23): `steps` counts the steps before it and not the one that stopped,
  which R84 and D12 leave open. -/
  | stopped (reason : Fault) (steps : Nat)
  /-- A step was refused; it is not counted either (log entry 23). -/
  | refused (reason : Refusal) (steps : Nat)
  deriving DecidableEq, Repr

/-- Step until Halted, at most `budget` more times, `steps` having been executed already; a request in Halted is not
counted (R81), and neither is a step that stops (DESIGN CHOICE, log entry 23). -/
def runFrom (steps : Nat) : Nat → State → RunEnd
  | 0, s => if s.Halted then .final s steps else .outOfBudget s steps
  | budget + 1, s =>
    if s.Halted then .final s steps
    else
      match step s with
      | .next t => runFrom (steps + 1) budget t
      | .fault f => .stopped f steps
      | .refused r => .refused r steps

/-- `runToCompletion` (R83). -/
def runToCompletion (budget : Nat) (s : State) : RunEnd := runFrom 0 budget s

end Sys2Proof.Machine
end

