-- ==== Sys2Proof/Safety.lean ====
section
/-! DEFINITION. The invariants of a run and what a launched machine is, in the terms statements use. -/

namespace Sys2Proof.Machine

open Sys2Proof

/-- The memory is in canonical form and has no slot at or above `MEM_SIZE` (R30, R35). -/
abbrev State.MemoryOk (s : State) : Prop :=
  s.imem.wf = true ∧ ∀ c ∈ s.imem, c.1 < s.memSize

/-- The bound of R17 on the program counter. -/
abbrev State.PcBounded (s : State) : Prop := s.pc ≤ max 15 s.memSize

/-- Every slot below `MEM_SIZE` holds a word (R21, R151). -/
abbrev State.Populated (s : State) : Prop := ∀ a < s.memSize, (s.imem.read a).isSome = true

/-- The invariant of every state, loaded or not. -/
abbrev State.Inv (s : State) : Prop := s.MemoryOk ∧ s.PcBounded

/-- A machine launched as R151 asks, at any point of its run. -/
abbrev State.Launched (s : State) : Prop := s.Inv ∧ s.Populated

/-- A step is safe when it neither faults nor is refused (R133). -/
def SafeStep (s : State) : Prop := ∃ t, step s = .next t

end Sys2Proof.Machine
end

