-- ==== Sys2Proof/Certificates/Slice0/Obligations.lean ====
section
/-! DEFINITION. The statements for the provers. A docstring names the rule a statement formalises, or, where it rests on
a sentence the spec marks as its own decision or derivation, that sentence or the log entry. -/

open Sys2Proof Sys2Proof.Machine

/-! ## Encoding (30_encoding.md) -/

/-- The decoder and the encoder are inverse to each other on all instructions and all 256 words: no bit is dropped and
every word has exactly one meaning. -/
def Obligations.DecodeEncodeInverse : Prop :=
  (∀ i : Instr, decode (encode i) = i) ∧ ∀ w : Byte, encode (decode w) = w

/-- R74: `op <- w[7:4]`, `k <- w[3:0]`, read as `floor(w / 16)` and `w mod 16` (R6); every word splits, and the
instruction decoded carries exactly these two fields. -/
def Obligations.DecodeSplitsTheWord : Prop :=
  ∀ w : Byte, (opcodeField w).toNat = w.toNat / 16 ∧ (operandField w).toNat = w.toNat % 16 ∧
    (decode w).opcode = opcodeField w ∧ (decode w).operand = operandField w

/-- Words written out from the word column of R48 decode to the instructions they stand for: a sanity statement. -/
def Obligations.DecodeOfWrittenWords : Prop :=
  decode 0b00000000#8 = .clra 0 ∧ decode 0b00110000#8 = .addb 0 ∧ decode 0b01010101#8 = .lda 5 ∧
    decode 0b01110000#8 = .jc 0 ∧ decode 0b10000010#8 = .j 2 ∧ decode 0b10011010#8 = .unk9 0xA

/-- The decode partition (30_encoding.md section 2, "Decode is total", marked derived there): 5 canonical operand-less
words, 75 non-canonical ones, 64 immediate instructions, 112 unknown words. -/
def Obligations.DecodePartition : Prop :=
  let words := (List.range 256).map (BitVec.ofNat 8)
  (words.countP fun w => decide ((decode w).opcode.toNat ≤ 4) && (decode w).wellFormed) = 5 ∧
    (words.countP fun w => decide ((decode w).opcode.toNat ≤ 4) && !(decode w).wellFormed) = 75 ∧
    (words.countP fun w => decide (5 ≤ (decode w).opcode.toNat) && decide ((decode w).opcode.toNat ≤ 8)) = 64 ∧
    (words.countP fun w => (decode w).isUnknown) = 112

/-- The executor decodes by opcode only (30_encoding.md section 2, marked derived there; log entry 8): with opcode 0 to 4
every operand field executes identically and warns of nothing, and no mnemonic yields such a word with a non-zero
operand. -/
def Obligations.OperandIgnoredByFixedForms : Prop :=
  ∀ w : Byte, (opcodeField w).toNat ≤ 4 →
    (∀ k s, exec (decode w) s = exec (decode (wordOf (opcodeField w) k)) s) ∧
    (∀ s, ∃ t, exec (decode w) s = .next t ∧ t.warnings = s.warnings) ∧
    (operandField w ≠ 0 → ∀ l, encodeLine l ≠ .ok w)

/-- Different words with the same effect, and the pair that only looks alike (30_encoding.md section 2, marked derived
there): 0x00 and 0x50, 0x10 and 0x61 agree; 0x40 falls through where 0x70 jumps to slot 0 if carry is true. -/
def Obligations.SameEffectWords : Prop :=
  ∀ s : State, exec (decode 0x00#8) s = exec (decode 0x50#8) s ∧ exec (decode 0x10#8) s = exec (decode 0x61#8) s ∧
    (∃ t, exec (decode 0x40#8) s = .next t ∧ t.pc = s.pc + 1) ∧
    (s.carry = true → ∃ t, exec (decode 0x70#8) s = .next t ∧ t.pc = 0)

/-! ## Register load and move (41_register_load.md) -/

/-- R90: `RA=0`, for every operand field; the whole next state is given, so everything else is unchanged. -/
def Obligations.ClraClearsRa : Prop :=
  ∀ (k : Nibble) (s : State), decode (0x0#4 ++ k) = .clra k ∧
    exec (.clra k) s = .next { s with ra := 0, pc := s.pc + 1 }

/-- R91: `RB=1`, for every operand field. -/
def Obligations.OnebSetsRb : Prop :=
  ∀ (k : Nibble) (s : State), decode (0x1#4 ++ k) = .oneb k ∧
    exec (.oneb k) s = .next { s with rb := 1, pc := s.pc + 1 }

/-- R92: `RO=RA`, for every operand field. -/
def Obligations.OutaCopiesRaToRo : Prop :=
  ∀ (k : Nibble) (s : State), decode (0x2#4 ++ k) = .outa k ∧
    exec (.outa k) s = .next { s with ro := s.ra, pc := s.pc + 1 }

/-- R93: `RA=<imm>`. -/
def Obligations.LdaLoadsRa : Prop :=
  ∀ (k : Nibble) (s : State), decode (0x5#4 ++ k) = .lda k ∧
    exec (.lda k) s = .next { s with ra := k, pc := s.pc + 1 }

/-- R94: `RB=<imm>`. -/
def Obligations.LdbLoadsRb : Prop :=
  ∀ (k : Nibble) (s : State), decode (0x6#4 ++ k) = .ldb k ∧
    exec (.ldb k) s = .next { s with rb := k, pc := s.pc + 1 }

/-! ## ALU (42_alu.md) -/

/-- R100: `add4`, as arithmetic on natural numbers. -/
def Obligations.Add4ComputesTheSum : Prop :=
  ∀ a b : Nibble, (add4 a b).1.toNat = (a.toNat + b.toNat) % 16 ∧
    ((add4 a b).2 = true ↔ 15 < a.toNat + b.toNat) ∧
    16 * (add4 a b).2.toNat + (add4 a b).1.toNat = a.toNat + b.toNat

/-- R101: `sub4`, as arithmetic on integers. -/
def Obligations.Sub4ComputesTheDifference : Prop :=
  ∀ a b : Nibble, ((sub4 a b).1.toNat : Int) = ((a.toNat : Int) - b.toNat) % 16 ∧
    ((sub4 a b).2 = true ↔ a.toNat < b.toNat) ∧
    ((sub4 a b).1.toNat : Int) - 16 * ((sub4 a b).2.toNat : Int) = (a.toNat : Int) - b.toNat

/-- R102: both flags are overwritten from the outcome of the ALU function invoked, whatever they held; nothing else
changes. -/
def Obligations.FlagRuleOverwritesBoth : Prop :=
  ∀ (a b : Nibble) (s : State),
    s.setFlags (alu .add a b) =
      { s with carry := decide (15 < a.toNat + b.toNat), zero := decide ((a.toNat + b.toNat) % 16 = 0) } ∧
    s.setFlags (alu .sub a b) = { s with carry := decide (a.toNat < b.toNat), zero := decide (a = b) }

/-- Laws of the two ALU functions (42_alu.md section 3, marked derived there), the adder realisation of the subtractor
among them. -/
def Obligations.AluLaws : Prop :=
  ∀ a b : Nibble, add4 a b = add4 b a ∧ add4 a 0 = (a, false) ∧ sub4 a 0 = (a, false) ∧ sub4 a a = (0, false) ∧
    sub4 0 b = (BitVec.ofNat 4 (16 - b.toNat), decide (b ≠ 0)) ∧ (add4 (sub4 a b).1 b).1 = a ∧
    ((add4 a b).2 = true ↔ (add4 a b).1.toNat < a.toNat) ∧ ((add4 a b).2 = true ↔ (add4 a b).1.toNat < b.toNat) ∧
    (sub4 a b).1 = (add4 a (BitVec.ofNat 4 (16 - b.toNat))).1 ∧
    (b ≠ 0 → (sub4 a b).2 = !(add4 a (BitVec.ofNat 4 (16 - b.toNat))).2)

/-- R103: `RB=RA+RB`, for every operand field: the sum of the old values modulo 16, both flags from it, and nothing else
but the pc. -/
def Obligations.AddbAddsAndSetsFlags : Prop :=
  ∀ (k : Nibble) (s : State), decode (0x3#4 ++ k) = .addb k ∧
    ∃ t, exec (.addb k) s = .next t ∧ t.rb.toNat = (s.ra.toNat + s.rb.toNat) % 16 ∧
      (t.carry = true ↔ 15 < s.ra.toNat + s.rb.toNat) ∧ (t.zero = true ↔ (s.ra.toNat + s.rb.toNat) % 16 = 0) ∧
      t = { s with rb := t.rb, carry := t.carry, zero := t.zero, pc := s.pc + 1 }

/-! ## Control transfer (43_control.md) -/

/-- R110: `JC=0` falls through, for every operand field and whether carry is true or false. -/
def Obligations.NojFallsThrough : Prop :=
  ∀ (k : Nibble) (s : State), decode (0x4#4 ++ k) = .noj k ∧ exec (.noj k) s = .next { s with pc := s.pc + 1 }

/-- R111: `JC=<imm>`, taken iff carry is true before the step; nothing but the pc changes. -/
def Obligations.JcJumpsIffCarry : Prop :=
  ∀ (k : Nibble) (s : State), decode (0x7#4 ++ k) = .jc k ∧
    exec (.jc k) s = .next { s with pc := if s.carry = true then k.toNat else s.pc + 1 }

/-- R112: `J=<imm>`; nothing but the pc changes. -/
def Obligations.JJumps : Prop :=
  ∀ (k : Nibble) (s : State), decode (0x8#4 ++ k) = .j k ∧ exec (.j k) s = .next { s with pc := k.toNat }

/-- A jump to a target at or above `MEM_SIZE` is performed, unclamped, and halts the core (43_control.md section on
targets, marked derived there; log entry 17). -/
def Obligations.JumpOutOfMemoryHalts : Prop :=
  ∀ (k : Nibble) (s : State), s.memSize ≤ k.toNat →
    (∃ t, exec (.j k) s = .next t ∧ t.pc = k.toNat ∧ t.Halted) ∧
    (s.carry = true → ∃ t, exec (.jc k) s = .next t ∧ t.pc = k.toNat ∧ t.Halted)

/-! ## Unknown opcodes (44_unknown_opcodes.md) -/

/-- The unknown opcodes of 44_unknown_opcodes.md, for the policy every rule is written for: each unknown opcode warns with the slot before the update and the
word, falls through, and changes nothing else. The log that holds the warning is the model's (log entry 5). -/
def Obligations.UnknownOpcodeWarnsAndFallsThrough : Prop :=
  ∀ (k : Nibble) (s : State), s.policy = .continues →
    (decode (0x9#4 ++ k) = .unk9 k ∧ exec (.unk9 k) s =
      .next { s with pc := s.pc + 1, warnings := s.warnings ++ [⟨s.pc, 0x9#4 ++ k⟩] }) ∧
    (decode (0xA#4 ++ k) = .unkA k ∧ exec (.unkA k) s =
      .next { s with pc := s.pc + 1, warnings := s.warnings ++ [⟨s.pc, 0xA#4 ++ k⟩] }) ∧
    (decode (0xB#4 ++ k) = .unkB k ∧ exec (.unkB k) s =
      .next { s with pc := s.pc + 1, warnings := s.warnings ++ [⟨s.pc, 0xB#4 ++ k⟩] }) ∧
    (decode (0xC#4 ++ k) = .unkC k ∧ exec (.unkC k) s =
      .next { s with pc := s.pc + 1, warnings := s.warnings ++ [⟨s.pc, 0xC#4 ++ k⟩] }) ∧
    (decode (0xD#4 ++ k) = .unkD k ∧ exec (.unkD k) s =
      .next { s with pc := s.pc + 1, warnings := s.warnings ++ [⟨s.pc, 0xD#4 ++ k⟩] }) ∧
    (decode (0xE#4 ++ k) = .unkE k ∧ exec (.unkE k) s =
      .next { s with pc := s.pc + 1, warnings := s.warnings ++ [⟨s.pc, 0xE#4 ++ k⟩] }) ∧
    (decode (0xF#4 ++ k) = .unkF k ∧ exec (.unkF k) s =
      .next { s with pc := s.pc + 1, warnings := s.warnings ++ [⟨s.pc, 0xF#4 ++ k⟩] })

/-- The model's choice of log entry 6 (decision D12): under the policy `fatal` an unknown opcode stops the machine,
naming the slot and the word, and every other instruction runs as under `continues`. -/
def Obligations.FatalPolicyFaultsOnUnknownOnly : Prop :=
  ∀ (i : Instr) (s : State), s.policy = .fatal →
    (i.isUnknown = true → exec i s = .fault (.unknownOpcodeFatal s.pc (encode i))) ∧
    (i.isUnknown = false → ∃ t, exec i { s with policy := .continues } = .next t ∧
      exec i s = .next { t with policy := .fatal })

/-- An unknown opcode and `JC=0` differ in the warning only (44_unknown_opcodes.md, "Observable difference", a decision
there). -/
def Obligations.UnknownDiffersFromNojInWarningOnly : Prop :=
  ∀ (i : Instr) (k : Nibble) (s : State), i.isUnknown = true → s.policy = .continues →
    ∃ t u, exec i s = .next t ∧ exec (.noj k) s = .next u ∧ t = { u with warnings := s.warnings ++ [⟨s.pc, encode i⟩] }

/-! ## The step (40_step_cycle.md) -/

/-- A step of a Running core runs the decoded word of slot pc, and adds nothing to it; whatever word is there. -/
def Obligations.StepRunsDecodedWord : Prop :=
  ∀ (s : State) (w : Byte), s.Running → s.imem.read s.pc = some w → step s = exec (decode w) s

/-- The dispatch table and the PC update of 40_step_cycle.md section 2 on a Running core, as one function of the word's
two fields: every register, both flags, the pc and the warnings after the step, in arithmetic on natural numbers, for the
policy every rule is written for. The log that holds the warning is the model's (log entry 5). -/
def Obligations.WholeStepByOpcode : Prop :=
  ∀ (s : State) (w : Byte), s.Running → s.imem.read s.pc = some w → s.policy = .continues →
    ∃ t, step s = .next t ∧
      t.ra.toNat = (if w.toNat / 16 = 0 then 0 else if w.toNat / 16 = 5 then w.toNat % 16 else s.ra.toNat) ∧
      t.rb.toNat = (if w.toNat / 16 = 1 then 1 else if w.toNat / 16 = 3 then (s.ra.toNat + s.rb.toNat) % 16
        else if w.toNat / 16 = 6 then w.toNat % 16 else s.rb.toNat) ∧
      t.ro.toNat = (if w.toNat / 16 = 2 then s.ra.toNat else s.ro.toNat) ∧
      t.carry = (if w.toNat / 16 = 3 then decide (15 < s.ra.toNat + s.rb.toNat) else s.carry) ∧
      t.zero = (if w.toNat / 16 = 3 then decide ((s.ra.toNat + s.rb.toNat) % 16 = 0) else s.zero) ∧
      t.pc = (if w.toNat / 16 = 8 ∨ (w.toNat / 16 = 7 ∧ s.carry = true) then w.toNat % 16 else s.pc + 1) ∧
      t.warnings = s.warnings ++ (if 9 ≤ w.toNat / 16 then [⟨s.pc, w⟩] else [])

/-- The control table of the decoder (40_step_cycle.md section 2, marked derived there from the dispatch table and the PC
update) and the datapath it drives compute the step. What the datapath does with a don't-care is the model's (log entry
14), and so is the log it appends a warning to (log entry 5). -/
def Obligations.ControlTableRealisesStep : Prop :=
  ∀ (s : State) (w : Byte), s.Running → s.imem.read s.pc = some w → s.policy = .continues →
    step s = .next (datapath (controlRow (opcodeField w)) w s)

/-- What instructions leave unchanged (10_state.md sections 1 to 3, 20_memory.md section 4): each register, flag and the
log changes only under the instructions named, under every policy; every slot reads as before and the launch parameters
stay. All 16 constructors, every form. That only an unknown opcode warns is 60_exceptions.md section 1, and the log that
holds the warning is the model's (44_unknown_opcodes.md, log entry 5); that a parameter is fixed for a run is 00_scope.md
section 3, and that it is a field of State is the model's (log entry 1). -/
def Obligations.InstructionFrames : Prop :=
  ∀ (i : Instr) (s t : State), exec i s = .next t →
    (t.ra ≠ s.ra → ∃ k, i = .clra k ∨ i = .lda k) ∧
    (t.rb ≠ s.rb → ∃ k, i = .oneb k ∨ i = .addb k ∨ i = .ldb k) ∧
    (t.ro ≠ s.ro → ∃ k, i = .outa k) ∧
    (t.carry ≠ s.carry ∨ t.zero ≠ s.zero → ∃ k, i = .addb k) ∧
    (t.pc ≠ s.pc + 1 → ∃ k, t.pc = k.toNat ∧ ((i = .jc k ∧ s.carry = true) ∨ i = .j k)) ∧
    (t.warnings ≠ s.warnings → i.isUnknown = true) ∧
    (∀ a, t.imem.read a = s.imem.read a) ∧ t.memSize = s.memSize ∧ t.policy = s.policy

/-- At most one register is written in a step, and a flag only by opcode 0x3, which writes no register but RB
(40_step_cycle.md section 2, marked derived there). -/
def Obligations.AtMostOneRegisterWritten : Prop :=
  ∀ s t : State, step s = .next t →
    ((t.ra = s.ra ∧ t.rb = s.rb) ∨ (t.ra = s.ra ∧ t.ro = s.ro) ∨ (t.rb = s.rb ∧ t.ro = s.ro)) ∧
    (t.carry ≠ s.carry ∨ t.zero ≠ s.zero →
      (∃ w, s.fetched = some w ∧ opcodeField w = 0x3) ∧ t.ra = s.ra ∧ t.ro = s.ro)

/-- One warning per unknown word executed and none otherwise, and the port `warn_unknown` shows it (60_exceptions.md
section 1 and the interface of 40_step_cycle.md, both decisions there; log entries 5 and 14). -/
def Obligations.OneWarningPerUnknownWord : Prop :=
  ∀ s t : State, step s = .next t →
    (∀ w, s.fetched = some w → (decode w).isUnknown = true →
      t.warnings = s.warnings ++ [⟨s.pc, w⟩] ∧ (ports false true s).warnUnknown = true) ∧
    ((∀ w, s.fetched = some w → (decode w).isUnknown = false) →
      t.warnings = s.warnings ∧ (ports false true s).warnUnknown = false)

/-- RO, zero and the warning log never influence anything else, along a whole run: two machines that differ in them alone
stay equal in everything else (10_state.md sections 1 and 3). That nothing reads the log is a decision of
44_unknown_opcodes.md (log entry 5); the memory size and the policy are parameters of 00_scope.md section 3, held in State
by log entry 1. -/
def Obligations.OutputsNeverInfluenceTheRun : Prop :=
  ∀ (n : Nat) (s t : State) (o : Nibble) (z : Bool) (ws : List Warning), Host.Core.run core n s = .next t →
    ∃ u : State, Host.Core.run core n { s with ro := o, zero := z, warnings := ws } = .next u ∧
      u.ra = t.ra ∧ u.rb = t.rb ∧ u.carry = t.carry ∧ u.pc = t.pc ∧ u.imem = t.imem ∧ u.memSize = t.memSize ∧
      u.policy = t.policy

/-! ## Halting and runs -/

/-- Halted is terminal: any number of step requests changes nothing (10_state.md section 4 and 40_step_cycle.md section
3, decisions there; log entry 7). -/
def Obligations.HaltedIsTerminal : Prop :=
  ∀ (n : Nat) (s : State), s.memSize ≤ s.pc → Host.Core.run core n s = .next s

/-- A core Running at a slot that no image populated stops by name: the model's choice of log entry 3. -/
def Obligations.UnpopulatedSlotFaults : Prop :=
  ∀ s : State, s.pc < s.memSize → s.imem.read s.pc = none → step s = .fault (.unpopulatedSlot s.pc)

/-- A jump to its own slot repeats for ever and is no fault (40_step_cycle.md section 3, 43_control.md): `J`, and `JC`
entered with carry true. -/
def Obligations.SelfJumpRunsForEver : Prop :=
  ∀ (n : Nat) (s : State) (k : Nibble) (w : Byte), s.Running → s.imem.read s.pc = some w → k.toNat = s.pc →
    (decode w = .j k ∨ (decode w = .jc k ∧ s.carry = true)) → Host.Core.run core n s = .next s

/-- From a launched machine with no jump word at or after pc, the run halts after exactly as many steps as slots remain,
with `pc = MEM_SIZE` (40_step_cycle.md section 3, marked derived there). -/
def Obligations.JumpFreeRunHaltsAtMemSize : Prop :=
  ∀ (s : State) (budget : Nat), s.Launched → s.policy = .continues → s.pc ≤ s.memSize →
    (∀ a w, s.pc ≤ a → s.imem.read a = some w → (decode w).isJump = false) → s.memSize - s.pc ≤ budget →
    ∃ t, runToCompletion budget s = .final t (s.memSize - s.pc) ∧ t.pc = s.memSize

/-- Running to completion and single-stepping give the same states (70_reset_and_hazards.md section 3): a final state
with n steps is the state after exactly n steps, the core Running before each of them; and a run whose n-th state is
Halted is complete within n steps. -/
def Obligations.CompletionMatchesSingleSteps : Prop :=
  ∀ (budget n : Nat) (s t : State),
    (runToCompletion budget s = .final t n →
      n ≤ budget ∧ Host.Core.run core n s = .next t ∧ t.Halted ∧
        ∀ m < n, ∃ u : State, Host.Core.run core m s = .next u ∧ u.Running) ∧
    (Host.Core.run core n s = .next t → t.Halted → ∃ m ≤ n, runToCompletion n s = .final t m)

/-! ## Invariants -/

/-- The invariant holds at reset: the memory in canonical form within `MEM_SIZE`, and the bound on pc. -/
def Obligations.ResetMeetsInvariant : Prop := State.reset.Inv

/-- Every step keeps the memory's canonical form within `MEM_SIZE` and the bound `pc <= max(15, MEM_SIZE)` of 10_state.md
section 2 (marked derived there). -/
def Obligations.StepKeepsInvariant : Prop :=
  ∀ s t : State, s.Inv → step s = .next t → t.Inv

/-- A pc register of any width that meets the condition on `PC_WIDTH` holds every pc after a step, so it never wraps
(10_state.md section 2, a decision there; log entry 4). -/
def Obligations.PcFitsAnyAllowedWidth : Prop :=
  ∀ (s t : State) (width : Nat), s.PcBounded → Config.PcWidthFits width s.memSize → step s = .next t →
    t.pc < 2 ^ width ∧ (BitVec.ofNat width t.pc).toNat = t.pc

/-- The instruction memory and the launch parameters are the same after any number of steps: the memory by 20_memory.md
sections 4 and 5, the memory size and the policy by 00_scope.md section 3 (a parameter is fixed for a run). It shows that
holding them in State, the model's choice of log entry 1, makes none of them mutable. -/
def Obligations.RunNeverChangesTheImage : Prop :=
  ∀ (n : Nat) (s t : State), Host.Core.run core n s = .next t →
    t.imem = s.imem ∧ t.memSize = s.memSize ∧ t.policy = s.policy

/-- A launched machine never faults and never is refused, however long it runs, under the policy `continues`, and stays
launched (60_exceptions.md section 1). -/
def Obligations.LaunchedRunNeverStops : Prop :=
  ∀ (n : Nat) (s : State), s.Launched → s.policy = .continues →
    ∃ t : State, Host.Core.run core n s = .next t ∧ t.Launched ∧ SafeStep t

/-! ## Reset, launch and host interface (70_reset_and_hazards.md) -/

/-- R24: the six state elements at reset, and the same whatever state reset is applied in; the instruction memory not
reset. The run state after reset, a row R24 marks derived, is `RunStateAfterReset`. -/
def Obligations.ResetState : Prop :=
  (State.reset.ra = 0 ∧ State.reset.rb = 0 ∧ State.reset.ro = 0 ∧ State.reset.carry = false ∧
    State.reset.zero = false ∧ State.reset.pc = 0) ∧
  ∀ s : State, s.applyReset.ra = 0 ∧ s.applyReset.rb = 0 ∧ s.applyReset.ro = 0 ∧ s.applyReset.carry = false ∧
    s.applyReset.zero = false ∧ s.applyReset.pc = 0 ∧ s.applyReset.imem = s.imem

/-- The run state after reset (10_state.md section 7, a row marked derived there): Running when `MEM_SIZE >= 1`, Halted at
once when it is 0. -/
def Obligations.RunStateAfterReset : Prop :=
  ∀ s : State, (1 ≤ s.memSize → s.applyReset.Running) ∧ (s.memSize = 0 → s.applyReset.Halted)

/-- Reset leaves any state, Halted too, and the first step after it runs the word of slot 0 (70_reset_and_hazards.md
section 1, a decision there). -/
def Obligations.FirstStepAfterResetRunsSlotZero : Prop :=
  ∀ (s : State) (w : Byte), 1 ≤ s.memSize → s.imem.read 0 = some w →
    step s.applyReset = exec (decode w) s.applyReset

/-- The host's moves: reset dominates a step request, and without either the state is held; `warn_unknown` is shown in
neither of the two cases in which no step is taken (log entry 14). -/
def Obligations.ResetDominatesStepRequest : Prop :=
  ∀ (s : State) (b : Bool), hostCycle true b s = .next s.applyReset ∧ hostCycle false true s = step s ∧
    hostCycle false false s = .next s ∧ (ports true b s).warnUnknown = false ∧ (ports b false s).warnUnknown = false

/-- R152: a word that is not exactly 8 bits, or a line that is not exactly 8 binary characters, anywhere in the image,
refuses the launch with `CorruptProgram`. -/
def Obligations.CorruptImageRefusesLaunch : Prop :=
  ∀ (memSize : Nat) (policy : UnknownOpcodePolicy),
    (∀ image : List RawWord, (∃ r ∈ image, r.length ≠ 8) → launch memSize policy image = .error .corruptProgram) ∧
    (∀ lines : List Line, (∃ l ∈ lines, ¬ (l.length = 8 ∧ ∀ c ∈ l, c = '0' ∨ c = '1')) →
      launchText memSize policy lines = .error .corruptProgram)

/-- An image of words is launched iff it has exactly `MEM_SIZE` of them (70_reset_and_hazards.md section 2, a decision
there; log entry 9), and then every slot holds its word, the six elements are those of reset, and the machine is
launched. -/
def Obligations.LaunchLoadsTheImage : Prop :=
  ∀ (memSize : Nat) (policy : UnknownOpcodePolicy) (words : List Byte),
    (words.length ≠ memSize → launchWords memSize policy words = .error .imageLength) ∧
    (words.length = memSize → ∃ s, launchWords memSize policy words = .ok s ∧ s.Launched ∧
      s = { State.reset with imem := s.imem, memSize := memSize, policy := policy } ∧
      ∀ a, s.imem.read a = words[a]?)

/-! ## Assembler and text image (30_encoding.md sections 3 and 4) -/

/-- The encoder's grammar: a line encodes iff, trimmed, it is one of the nine patterns with a decimal immediate 0 to 15,
the fixed forms winning (30_encoding.md section 3; log entries 11, 12 and 13). -/
def Obligations.EncoderGrammar : Prop :=
  ∀ (l : Line) (w : Byte), encodeLine l = .ok w ↔
    (trim l = "RA=0".toList ∧ w = 0x00) ∨ (trim l = "RB=1".toList ∧ w = 0x10) ∨
    (trim l = "RO=RA".toList ∧ w = 0x20) ∨ (trim l = "RB=RA+RB".toList ∧ w = 0x30) ∨
    (trim l = "JC=0".toList ∧ w = 0x40) ∨
    ∃ imm : Nat, imm ≤ 15 ∧
      ((imm ≠ 0 ∧ trim l = "RA=".toList ++ Nat.toDigits 10 imm ∧ w.toNat = 16 * 5 + imm) ∨
       (imm ≠ 1 ∧ trim l = "RB=".toList ++ Nat.toDigits 10 imm ∧ w.toNat = 16 * 6 + imm) ∨
       (imm ≠ 0 ∧ trim l = "JC=".toList ++ Nat.toDigits 10 imm ∧ w.toNat = 16 * 7 + imm) ∨
       (trim l = "J=".toList ++ Nat.toDigits 10 imm ∧ w.toNat = 16 * 8 + imm))

/-- The words that some mnemonic line yields are exactly those of the assemblable instructions, 66 of the 256
(30_encoding.md section 3, marked derived there). -/
def Obligations.EncoderRange : Prop :=
  (∀ w : Byte, (∃ l, encodeLine l = .ok w) ↔ (decode w).assemblable = true) ∧
    ((List.range 256).countP fun n => (decode (BitVec.ofNat 8 n)).assemblable) = 66

/-- The round trip of a mnemonic: an assemblable instruction's own text encodes to its word, which decodes to it
(30_encoding.md section 3). The reverse fails for the three instructions without a mnemonic: their filled-in pattern names
another word, with the same effect for `RA=<imm>` 0 and `RB=<imm>` 1, with another effect for `JC=<imm>` 0. -/
def Obligations.MnemonicRoundTrip : Prop :=
  (∀ i : Instr, i.assemblable = true →
    ∃ l, mnemonicText i = some l ∧ encodeLine l = .ok (encode i) ∧ decode (encode i) = i) ∧
  (∃ l, patternText (.lda 0) = some l ∧ encodeLine l = .ok 0x00 ∧
    ∀ s, exec (.lda 0) s = exec (decode 0x00#8) s) ∧
  (∃ l, patternText (.ldb 1) = some l ∧ encodeLine l = .ok 0x10 ∧
    ∀ s, exec (.ldb 1) s = exec (decode 0x10#8) s) ∧
  (∃ l, patternText (.jc 0) = some l ∧ encodeLine l = .ok 0x40 ∧
    ∃ s t u, exec (.jc 0) s = .next t ∧ exec (decode 0x40#8) s = .next u ∧ t.pc ≠ u.pc)

/-- What the disassembler prints never names another word: a listed line that encodes at all encodes to the instruction's
own word, and it encodes iff the instruction has a mnemonic; so 0x70 is not printed as `JC=0` (30_encoding.md section 3;
the line of a word without a mnemonic is the model's choice, log entry 24). -/
def Obligations.ListingNamesNoOtherWord : Prop :=
  (∀ (i : Instr) (w : Byte), encodeLine (listingLine i) = .ok w → w = encode i) ∧
  (∀ i : Instr, (∃ w, encodeLine (listingLine i) = .ok w) ↔ i.assemblable = true) ∧
  mnemonicText (.jc 0) = none ∧ listingLine (.jc 0) ≠ "JC=0".toList

/-- A program text: a line that encodes gives one word, in order; a blank or refused line gives none and does not stop
the rest (30_encoding.md section 3; log entry 19). -/
def Obligations.AssembleTakesEncodingLines : Prop :=
  ∀ (l : Line) (rest : List Line),
    (∀ w, encodeLine l = .ok w → assemble (l :: rest) = w :: assemble rest ∧ refusedLines (l :: rest) = refusedLines rest) ∧
    (trim l = [] → assemble (l :: rest) = assemble rest ∧ refusedLines (l :: rest) = refusedLines rest) ∧
    (encodeLine l = .error .invalidInstruction → trim l ≠ [] →
      assemble (l :: rest) = assemble rest ∧ refusedLines (l :: rest) = l :: refusedLines rest)

/-- A line of the text image is the word's eight bits, bit 7 first, and no other line is one (30_encoding.md section 4,
the order of the characters from general knowledge; log entry 10). -/
def Obligations.ImageLineIsTheWord : Prop :=
  ∀ (l : Line) (w : Byte), parseImageLine l = some w ↔ l = imageLine w

/-- An image's three forms launch alike: the raw bits of its words, and its text of newline-terminated lines
(30_encoding.md section 4 and 70_reset_and_hazards.md section 2; log entries 10 and 16). -/
def Obligations.ImageFormsLaunchAlike : Prop :=
  ∀ (memSize : Nat) (policy : UnknownOpcodePolicy) (words : List Byte),
    launch memSize policy (words.map wordBits) = launchWords memSize policy words ∧
    launchText memSize policy (words.map imageLine) = launchWords memSize policy words ∧
    launchImageText memSize policy (imageText words) = launchWords memSize policy words
end

