-- ==== Sys2Proof/Laws/Assembler.lean ====
section
/-! SUPPORT. What the assembler's functions answer, said once. -/

namespace Sys2Proof.Machine

open Sys2Proof

/-- A line goes on after a pattern's fixed part iff it is that part followed by the rest. -/
theorem afterPattern_eq_some_iff (fixed l rest : Line) : afterPattern fixed l = some rest ↔ l = fixed ++ rest := by
  induction fixed generalizing l with
  | nil => simp [afterPattern, eq_comm]
  | cons p ps ih =>
    cases l with
    | nil => simp [afterPattern]
    | cons c cs =>
      rw [afterPattern]
      split
      · next h => simp [ih, h]
      · next h => simp [Ne.symm h]

/-- An instruction has a mnemonic iff it is assemblable and the mnemonic is its filled-in pattern. -/
theorem mnemonicText_eq_some_iff (i : Instr) (l : Line) :
    mnemonicText i = some l ↔ i.assemblable = true ∧ patternText i = some l := by
  unfold mnemonicText
  split <;> simp_all

/-- The listing of an instruction with a mnemonic is the mnemonic. -/
theorem listingLine_of_mnemonicText (i : Instr) (l : Line) (h : mnemonicText i = some l) : listingLine i = l := by
  rw [listingLine, h, Option.getD_some]

/-- The listing of an instruction without one is the image line of its word. -/
theorem listingLine_of_not_assemblable (i : Instr) (h : i.assemblable = false) : listingLine i = imageLine (encode i) := by
  rw [listingLine, mnemonicText, h]
  rfl

end Sys2Proof.Machine
end

