-- ==== Sys2Proof/Laws/Memory.lean ====
section
/-! SUPPORT. The laws of the instruction memory: reading after populating, and that every memory operation keeps the
canonical form. -/

namespace Sys2Proof.Machine

open Sys2Proof

@[simp] theorem Memory.read_nil (a : Nat) : Memory.read [] a = none := rfl

@[simp] theorem Memory.read_cons_same (a : Nat) (w : Byte) (m : Memory) : Memory.read ((a, w) :: m) a = some w := by
  simp [Memory.read]

theorem Memory.read_cons_other (c : Host.Cell) (m : Memory) (a : Nat) (h : c.1 ≠ a) :
    Memory.read (c :: m) a = Memory.read m a := by
  simp [Memory.read, h]

/-- The canonical form as a fact about the head and the tail. -/
theorem Memory.wf_cons (c : Host.Cell) (m : Memory) :
    Memory.wf (c :: m) = true ↔ (∀ d ∈ m, c.1 < d.1) ∧ Memory.wf m = true := by
  induction m generalizing c with
  | nil => simp [Memory.wf]
  | cons d m ih =>
    rw [Memory.wf, Bool.and_eq_true, decide_eq_true_iff]
    refine ⟨fun ⟨hcd, hd⟩ => ⟨fun e he => ?_, hd⟩, fun ⟨hc, hd⟩ => ⟨hc d (by simp), hd⟩⟩
    obtain rfl | he := List.mem_cons.mp he
    · exact hcd
    · exact hcd.trans (((ih d).mp hd).1 e he)

theorem Memory.read_eq_none_of_lt (m : Memory) (a : Nat) (h : ∀ d ∈ m, a < d.1) : m.read a = none := by
  induction m with
  | nil => rfl
  | cons d m ih =>
    rw [Memory.read_cons_other d m a (Nat.ne_of_gt (h d (by simp)))]
    exact ih fun e he => h e (by simp [he])

/-- Reading the slot just populated. -/
@[simp] theorem Memory.read_populate_same (m : Memory) (a : Nat) (w : Byte) : (m.populate a w).read a = some w := by
  induction m with
  | nil => simp [Memory.populate]
  | cons c m ih =>
    rw [Memory.populate]
    split
    · simp
    · split
      · simp
      · next h h' => rw [Memory.read_cons_other c _ a (Ne.symm h'), ih]

/-- Populating a slot leaves every other slot alone. -/
theorem Memory.read_populate_other (m : Memory) (a b : Nat) (w : Byte) (h : a ≠ b) :
    (m.populate a w).read b = m.read b := by
  induction m with
  | nil => simp [Memory.populate, Memory.read, h, Memory.unlisted]
  | cons c m ih =>
    rw [Memory.populate]
    split
    · rw [Memory.read_cons_other (a, w) _ b h]
    · split
      · next h' => rw [Memory.read_cons_other (a, w) _ b h, Memory.read_cons_other c _ b (h' ▸ h)]
      · simp [Memory.read, ih]

/-- The slots listed after populating. -/
theorem Memory.mem_populate (m : Memory) (a : Nat) (w : Byte) (c : Host.Cell) (h : c ∈ m.populate a w) :
    c = (a, w) ∨ c ∈ m := by
  induction m with
  | nil => simpa [Memory.populate] using h
  | cons d m ih =>
    rw [Memory.populate] at h
    split at h
    · simpa using h
    · split at h
      · obtain h | h := List.mem_cons.mp h
        · exact .inl h
        · exact .inr (by simp [h])
      · obtain h | h := List.mem_cons.mp h
        · exact .inr (by simp [h])
        · exact (ih h).imp id (by simp +contextual)

/-- Populating keeps the canonical form. -/
theorem Memory.wf_populate (m : Memory) (a : Nat) (w : Byte) (h : m.wf = true) : (m.populate a w).wf = true := by
  induction m with
  | nil => rfl
  | cons c m ih =>
    obtain ⟨hc, hm⟩ := (Memory.wf_cons c m).mp h
    rw [Memory.populate]
    split
    · next hac =>
      refine (Memory.wf_cons _ _).mpr ⟨fun d hd => ?_, h⟩
      obtain rfl | hd := List.mem_cons.mp hd
      · exact hac
      · exact hac.trans (hc d hd)
    · split
      · next hac => exact (Memory.wf_cons _ _).mpr ⟨fun d hd => hac ▸ hc d hd, hm⟩
      · next h1 h2 =>
        refine (Memory.wf_cons _ _).mpr ⟨fun d hd => ?_, ih hm⟩
        obtain rfl | hd := Memory.mem_populate m a w d hd
        · exact Nat.lt_of_le_of_ne (Nat.le_of_not_lt h1) (Ne.symm h2)
        · exact hc d hd

/-- The slots an image lists. -/
theorem Memory.mem_ofWords (words : List Byte) (start : Nat) (c : Host.Cell) (h : c ∈ Memory.ofWords start words) :
    start ≤ c.1 ∧ c.1 < start + words.length := by
  induction words generalizing start with
  | nil => simp [Memory.ofWords] at h
  | cons w words ih =>
    obtain rfl | h := List.mem_cons.mp h
    · simp
    · have := ih (start + 1) h
      simp only [List.length_cons]
      omega

/-- An image is in canonical form. -/
theorem Memory.wf_ofWords (words : List Byte) (start : Nat) : (Memory.ofWords start words).wf = true := by
  induction words generalizing start with
  | nil => rfl
  | cons w words ih =>
    refine (Memory.wf_cons _ _).mpr ⟨fun d hd => ?_, ih (start + 1)⟩
    exact (Memory.mem_ofWords words (start + 1) d hd).1

/-- Slot `start + i` of an image holds its i-th word, and no other slot holds one. -/
theorem Memory.read_ofWords (words : List Byte) (start i : Nat) :
    (Memory.ofWords start words).read (start + i) = words[i]? := by
  induction words generalizing start i with
  | nil => rfl
  | cons w words ih =>
    cases i with
    | zero => simp [Memory.ofWords]
    | succ i =>
      rw [Memory.ofWords, Memory.read_cons_other _ _ _ (by simp), List.getElem?_cons_succ, ← ih (start + 1) i]
      congr 1
      omega

end Sys2Proof.Machine
end

