-- ==== Sys2Proof/Laws/State.lean ====
section
/-! SUPPORT. One lemma per field per update, true by rfl: no later proof unfolds a record update. -/

namespace Sys2Proof.Machine

open Sys2Proof

@[simp] theorem State.setRa_ra (s : State) (v : Nibble) : (s.setRa v).ra = v := rfl
@[simp] theorem State.setRa_rb (s : State) (v : Nibble) : (s.setRa v).rb = s.rb := rfl
@[simp] theorem State.setRa_ro (s : State) (v : Nibble) : (s.setRa v).ro = s.ro := rfl
@[simp] theorem State.setRa_carry (s : State) (v : Nibble) : (s.setRa v).carry = s.carry := rfl
@[simp] theorem State.setRa_zero (s : State) (v : Nibble) : (s.setRa v).zero = s.zero := rfl
@[simp] theorem State.setRa_pc (s : State) (v : Nibble) : (s.setRa v).pc = s.pc := rfl
@[simp] theorem State.setRa_imem (s : State) (v : Nibble) : (s.setRa v).imem = s.imem := rfl
@[simp] theorem State.setRa_memSize (s : State) (v : Nibble) : (s.setRa v).memSize = s.memSize := rfl
@[simp] theorem State.setRa_policy (s : State) (v : Nibble) : (s.setRa v).policy = s.policy := rfl
@[simp] theorem State.setRa_warnings (s : State) (v : Nibble) : (s.setRa v).warnings = s.warnings := rfl

@[simp] theorem State.setRb_ra (s : State) (v : Nibble) : (s.setRb v).ra = s.ra := rfl
@[simp] theorem State.setRb_rb (s : State) (v : Nibble) : (s.setRb v).rb = v := rfl
@[simp] theorem State.setRb_ro (s : State) (v : Nibble) : (s.setRb v).ro = s.ro := rfl
@[simp] theorem State.setRb_carry (s : State) (v : Nibble) : (s.setRb v).carry = s.carry := rfl
@[simp] theorem State.setRb_zero (s : State) (v : Nibble) : (s.setRb v).zero = s.zero := rfl
@[simp] theorem State.setRb_pc (s : State) (v : Nibble) : (s.setRb v).pc = s.pc := rfl
@[simp] theorem State.setRb_imem (s : State) (v : Nibble) : (s.setRb v).imem = s.imem := rfl
@[simp] theorem State.setRb_memSize (s : State) (v : Nibble) : (s.setRb v).memSize = s.memSize := rfl
@[simp] theorem State.setRb_policy (s : State) (v : Nibble) : (s.setRb v).policy = s.policy := rfl
@[simp] theorem State.setRb_warnings (s : State) (v : Nibble) : (s.setRb v).warnings = s.warnings := rfl

@[simp] theorem State.setRo_ra (s : State) (v : Nibble) : (s.setRo v).ra = s.ra := rfl
@[simp] theorem State.setRo_rb (s : State) (v : Nibble) : (s.setRo v).rb = s.rb := rfl
@[simp] theorem State.setRo_ro (s : State) (v : Nibble) : (s.setRo v).ro = v := rfl
@[simp] theorem State.setRo_carry (s : State) (v : Nibble) : (s.setRo v).carry = s.carry := rfl
@[simp] theorem State.setRo_zero (s : State) (v : Nibble) : (s.setRo v).zero = s.zero := rfl
@[simp] theorem State.setRo_pc (s : State) (v : Nibble) : (s.setRo v).pc = s.pc := rfl
@[simp] theorem State.setRo_imem (s : State) (v : Nibble) : (s.setRo v).imem = s.imem := rfl
@[simp] theorem State.setRo_memSize (s : State) (v : Nibble) : (s.setRo v).memSize = s.memSize := rfl
@[simp] theorem State.setRo_policy (s : State) (v : Nibble) : (s.setRo v).policy = s.policy := rfl
@[simp] theorem State.setRo_warnings (s : State) (v : Nibble) : (s.setRo v).warnings = s.warnings := rfl

@[simp] theorem State.setFlags_ra (s : State) (r : Nibble × Bool) : (s.setFlags r).ra = s.ra := rfl
@[simp] theorem State.setFlags_rb (s : State) (r : Nibble × Bool) : (s.setFlags r).rb = s.rb := rfl
@[simp] theorem State.setFlags_ro (s : State) (r : Nibble × Bool) : (s.setFlags r).ro = s.ro := rfl
@[simp] theorem State.setFlags_carry (s : State) (r : Nibble × Bool) : (s.setFlags r).carry = r.2 := rfl
@[simp] theorem State.setFlags_zero (s : State) (r : Nibble × Bool) : (s.setFlags r).zero = (r.1 == 0) := rfl
@[simp] theorem State.setFlags_pc (s : State) (r : Nibble × Bool) : (s.setFlags r).pc = s.pc := rfl
@[simp] theorem State.setFlags_imem (s : State) (r : Nibble × Bool) : (s.setFlags r).imem = s.imem := rfl
@[simp] theorem State.setFlags_memSize (s : State) (r : Nibble × Bool) : (s.setFlags r).memSize = s.memSize := rfl
@[simp] theorem State.setFlags_policy (s : State) (r : Nibble × Bool) : (s.setFlags r).policy = s.policy := rfl
@[simp] theorem State.setFlags_warnings (s : State) (r : Nibble × Bool) : (s.setFlags r).warnings = s.warnings := rfl

@[simp] theorem State.fallThrough_ra (s : State) : (s.fallThrough).ra = s.ra := rfl
@[simp] theorem State.fallThrough_rb (s : State) : (s.fallThrough).rb = s.rb := rfl
@[simp] theorem State.fallThrough_ro (s : State) : (s.fallThrough).ro = s.ro := rfl
@[simp] theorem State.fallThrough_carry (s : State) : (s.fallThrough).carry = s.carry := rfl
@[simp] theorem State.fallThrough_zero (s : State) : (s.fallThrough).zero = s.zero := rfl
@[simp] theorem State.fallThrough_pc (s : State) : (s.fallThrough).pc = s.pc + 1 := rfl
@[simp] theorem State.fallThrough_imem (s : State) : (s.fallThrough).imem = s.imem := rfl
@[simp] theorem State.fallThrough_memSize (s : State) : (s.fallThrough).memSize = s.memSize := rfl
@[simp] theorem State.fallThrough_policy (s : State) : (s.fallThrough).policy = s.policy := rfl
@[simp] theorem State.fallThrough_warnings (s : State) : (s.fallThrough).warnings = s.warnings := rfl

@[simp] theorem State.jumpTo_ra (s : State) (k : Nibble) : (s.jumpTo k).ra = s.ra := rfl
@[simp] theorem State.jumpTo_rb (s : State) (k : Nibble) : (s.jumpTo k).rb = s.rb := rfl
@[simp] theorem State.jumpTo_ro (s : State) (k : Nibble) : (s.jumpTo k).ro = s.ro := rfl
@[simp] theorem State.jumpTo_carry (s : State) (k : Nibble) : (s.jumpTo k).carry = s.carry := rfl
@[simp] theorem State.jumpTo_zero (s : State) (k : Nibble) : (s.jumpTo k).zero = s.zero := rfl
@[simp] theorem State.jumpTo_pc (s : State) (k : Nibble) : (s.jumpTo k).pc = jumpTarget k := rfl
@[simp] theorem State.jumpTo_imem (s : State) (k : Nibble) : (s.jumpTo k).imem = s.imem := rfl
@[simp] theorem State.jumpTo_memSize (s : State) (k : Nibble) : (s.jumpTo k).memSize = s.memSize := rfl
@[simp] theorem State.jumpTo_policy (s : State) (k : Nibble) : (s.jumpTo k).policy = s.policy := rfl
@[simp] theorem State.jumpTo_warnings (s : State) (k : Nibble) : (s.jumpTo k).warnings = s.warnings := rfl

@[simp] theorem State.warn_ra (s : State) (w : Warning) : (s.warn w).ra = s.ra := rfl
@[simp] theorem State.warn_rb (s : State) (w : Warning) : (s.warn w).rb = s.rb := rfl
@[simp] theorem State.warn_ro (s : State) (w : Warning) : (s.warn w).ro = s.ro := rfl
@[simp] theorem State.warn_carry (s : State) (w : Warning) : (s.warn w).carry = s.carry := rfl
@[simp] theorem State.warn_zero (s : State) (w : Warning) : (s.warn w).zero = s.zero := rfl
@[simp] theorem State.warn_pc (s : State) (w : Warning) : (s.warn w).pc = s.pc := rfl
@[simp] theorem State.warn_imem (s : State) (w : Warning) : (s.warn w).imem = s.imem := rfl
@[simp] theorem State.warn_memSize (s : State) (w : Warning) : (s.warn w).memSize = s.memSize := rfl
@[simp] theorem State.warn_policy (s : State) (w : Warning) : (s.warn w).policy = s.policy := rfl
@[simp] theorem State.warn_warnings (s : State) (w : Warning) : (s.warn w).warnings = s.warnings ++ [w] := rfl

@[simp] theorem State.applyReset_ra (s : State) : (s.applyReset).ra = 0 := rfl
@[simp] theorem State.applyReset_rb (s : State) : (s.applyReset).rb = 0 := rfl
@[simp] theorem State.applyReset_ro (s : State) : (s.applyReset).ro = 0 := rfl
@[simp] theorem State.applyReset_carry (s : State) : (s.applyReset).carry = false := rfl
@[simp] theorem State.applyReset_zero (s : State) : (s.applyReset).zero = false := rfl
@[simp] theorem State.applyReset_pc (s : State) : (s.applyReset).pc = 0 := rfl
@[simp] theorem State.applyReset_imem (s : State) : (s.applyReset).imem = s.imem := rfl
@[simp] theorem State.applyReset_memSize (s : State) : (s.applyReset).memSize = s.memSize := rfl
@[simp] theorem State.applyReset_policy (s : State) : (s.applyReset).policy = s.policy := rfl
@[simp] theorem State.applyReset_warnings (s : State) : (s.applyReset).warnings = [] := rfl

end Sys2Proof.Machine
end

