-- ==== Sys2Proof/Laws/Ops.lean ====
section
/-! SUPPORT. What each shared operation can do, said once. -/

namespace Sys2Proof.Machine

open Sys2Proof

/-- A fetch answers the word of slot pc, or faults where there is none. -/
theorem fetch_ok_iff (s : State) (w : Byte) : fetch s = .ok w ↔ s.imem.read s.pc = some w := by
  unfold fetch
  split <;> simp_all

theorem fetch_error_iff (s : State) (f : Fault) :
    fetch s = .error f ↔ s.imem.read s.pc = none ∧ f = .unpopulatedSlot s.pc := by
  unfold fetch
  cases h : s.imem.read s.pc <;> simp [eq_comm]

/-- An unknown opcode answers a next state only under `continues`, and then warns and falls through. -/
theorem unknownOpcode_next_iff (op k : Nibble) (s t : State) :
    unknownOpcode op k s = .next t ↔
      s.policy = .continues ∧ t = (s.warn ⟨s.pc, wordOf op k⟩).fallThrough := by
  unfold unknownOpcode
  cases h : s.policy <;> simp [eq_comm]

/-- An unknown opcode faults only under `fatal`, and is never refused. -/
theorem unknownOpcode_fault_iff (op k : Nibble) (s : State) (f : Fault) :
    unknownOpcode op k s = .fault f ↔ s.policy = .fatal ∧ f = .unknownOpcodeFatal s.pc (wordOf op k) := by
  unfold unknownOpcode
  cases h : s.policy <;> simp [eq_comm]

theorem unknownOpcode_not_refused (op k : Nibble) (s : State) (r : Refusal) :
    unknownOpcode op k s ≠ .refused r := by
  unfold unknownOpcode
  split <;> simp

end Sys2Proof.Machine
end

