-- ==== Sys2Proof/Laws/PerInstr.lean ====
section
/-! SUPPORT. Statements made per instruction about the encoding. -/

namespace Sys2Proof.Laws

open Sys2Proof

/-- Joining an opcode and an operand and taking the fields apart again (R46). -/
theorem opcodeField_wordOf (op k : Nibble) : opcodeField (wordOf op k) = op := by
  apply BitVec.eq_of_getLsbD_eq
  intro i hi
  simp only [opcodeField, wordOf, BitVec.getLsbD_extractLsb', BitVec.getLsbD_append, hi, decide_true, Bool.true_and]
  rw [if_neg (by omega)]
  congr 1
  omega

theorem operandField_wordOf (op k : Nibble) : operandField (wordOf op k) = k := by
  apply BitVec.eq_of_getLsbD_eq
  intro i hi
  simp only [operandField, wordOf, BitVec.getLsbD_extractLsb', Nat.zero_add, BitVec.getLsbD_append, hi, decide_true,
    Bool.true_and, if_true]

/-- The fields of an instruction's word are its row's opcode and the operand it carries (R46, R48). -/
def FieldsAgree.Statement (i : Instr) : Prop :=
  opcodeField (encode i) = i.opcode ∧ operandField (encode i) = i.operand

theorem FieldsAgree.clra (k : Nibble) : FieldsAgree.Statement (.clra k) :=
  ⟨opcodeField_wordOf _ _, operandField_wordOf _ _⟩

theorem FieldsAgree.oneb (k : Nibble) : FieldsAgree.Statement (.oneb k) :=
  ⟨opcodeField_wordOf _ _, operandField_wordOf _ _⟩

theorem FieldsAgree.outa (k : Nibble) : FieldsAgree.Statement (.outa k) :=
  ⟨opcodeField_wordOf _ _, operandField_wordOf _ _⟩

theorem FieldsAgree.addb (k : Nibble) : FieldsAgree.Statement (.addb k) :=
  ⟨opcodeField_wordOf _ _, operandField_wordOf _ _⟩

theorem FieldsAgree.noj (k : Nibble) : FieldsAgree.Statement (.noj k) :=
  ⟨opcodeField_wordOf _ _, operandField_wordOf _ _⟩

theorem FieldsAgree.lda (k : Nibble) : FieldsAgree.Statement (.lda k) :=
  ⟨opcodeField_wordOf _ _, operandField_wordOf _ _⟩

theorem FieldsAgree.ldb (k : Nibble) : FieldsAgree.Statement (.ldb k) :=
  ⟨opcodeField_wordOf _ _, operandField_wordOf _ _⟩

theorem FieldsAgree.jc (k : Nibble) : FieldsAgree.Statement (.jc k) :=
  ⟨opcodeField_wordOf _ _, operandField_wordOf _ _⟩

theorem FieldsAgree.j (k : Nibble) : FieldsAgree.Statement (.j k) :=
  ⟨opcodeField_wordOf _ _, operandField_wordOf _ _⟩

theorem FieldsAgree.unk9 (k : Nibble) : FieldsAgree.Statement (.unk9 k) :=
  ⟨opcodeField_wordOf _ _, operandField_wordOf _ _⟩

theorem FieldsAgree.unkA (k : Nibble) : FieldsAgree.Statement (.unkA k) :=
  ⟨opcodeField_wordOf _ _, operandField_wordOf _ _⟩

theorem FieldsAgree.unkB (k : Nibble) : FieldsAgree.Statement (.unkB k) :=
  ⟨opcodeField_wordOf _ _, operandField_wordOf _ _⟩

theorem FieldsAgree.unkC (k : Nibble) : FieldsAgree.Statement (.unkC k) :=
  ⟨opcodeField_wordOf _ _, operandField_wordOf _ _⟩

theorem FieldsAgree.unkD (k : Nibble) : FieldsAgree.Statement (.unkD k) :=
  ⟨opcodeField_wordOf _ _, operandField_wordOf _ _⟩

theorem FieldsAgree.unkE (k : Nibble) : FieldsAgree.Statement (.unkE k) :=
  ⟨opcodeField_wordOf _ _, operandField_wordOf _ _⟩

theorem FieldsAgree.unkF (k : Nibble) : FieldsAgree.Statement (.unkF k) :=
  ⟨opcodeField_wordOf _ _, operandField_wordOf _ _⟩

end Sys2Proof.Laws
end

