-- ==== Sys2Proof/Laws/Step.lean ====
section
/-! SUPPORT. What one step can do, said once: the inversions of `step`. -/

namespace Sys2Proof.Machine

open Sys2Proof

/-- A step that answers a next state is the identity of Halted, or ran the decoded word of slot pc. -/
theorem step_next_cases (s t : State) (h : step s = .next t) :
    (s.Halted ∧ t = s) ∨ (s.Running ∧ ∃ w, s.imem.read s.pc = some w ∧ exec (decode w) s = .next t) := by
  unfold step at h
  split at h
  · next hh => exact .inl ⟨hh, by simpa using h.symm⟩
  · next hh =>
    split at h
    · next w hw => exact .inr ⟨Nat.lt_of_not_le hh, w, (fetch_ok_iff s w).mp hw, h⟩
    · cases h

/-- A step that faults found no word in slot pc, or ran an instruction that faulted. -/
theorem step_fault_cases (s : State) (f : Fault) (h : step s = .fault f) :
    s.Running ∧ ((s.imem.read s.pc = none ∧ f = .unpopulatedSlot s.pc) ∨
      ∃ w, s.imem.read s.pc = some w ∧ exec (decode w) s = .fault f) := by
  unfold step at h
  split at h
  · cases h
  · next hh =>
    refine ⟨Nat.lt_of_not_le hh, ?_⟩
    split at h
    · next w hw => exact .inr ⟨w, (fetch_ok_iff s w).mp hw, h⟩
    · next e he =>
      obtain ⟨hn, rfl⟩ := (fetch_error_iff s e).mp he
      exact .inl ⟨hn, by simpa using h.symm⟩

/-- The placed word is the one the next step fetches, and the core is Running. -/
theorem withFetchWord_running (s : State) (nbits w : Nat) : (s.withFetchWord nbits w).Running := by
  show s.pc < max s.memSize (s.pc + 1)
  omega

theorem withFetchWord_fetch (s : State) (nbits w : Nat) :
    fetch (s.withFetchWord nbits w) = .ok (BitVec.ofNat 8 (w % 2 ^ nbits)) :=
  (fetch_ok_iff _ _).mpr (Memory.read_populate_same _ _ _)

end Sys2Proof.Machine
end

