-- ==== Sys2Proof/Laws/Run.lean ====
section
/-! SUPPORT. Runs of the machine behind Host/Core.lean, one step at a time. -/

namespace Sys2Proof.Machine

open Sys2Proof

@[simp] theorem run_zero (s : State) : Host.Core.run core 0 s = .next s := rfl

/-- For any machine: a run whose first step answers goes on from there. -/
theorem coreRun_succ_of_step (M : Host.Core) (n : Nat) (s u : M.State) (h : M.step s = .next u) :
    M.run (n + 1) s = M.run n u := by
  rw [Host.Core.run, h]

/-- For any machine: a run of n + 1 steps that answers did one step and then n. -/
theorem coreRun_succ_next (M : Host.Core) (n : Nat) (s t : M.State) (h : M.run (n + 1) s = .next t) :
    ∃ u, M.step s = .next u ∧ M.run n u = .next t := by
  rw [Host.Core.run] at h
  split at h
  · next u hu => exact ⟨u, hu, h⟩
  · cases h
  · cases h

theorem run_succ_of_step (n : Nat) (s u : State) (h : step s = .next u) :
    Host.Core.run core (n + 1) s = Host.Core.run core n u :=
  coreRun_succ_of_step core n s u h

theorem run_succ_next (n : Nat) (s t : State) (h : Host.Core.run core (n + 1) s = .next t) :
    ∃ u, step s = .next u ∧ Host.Core.run core n u = .next t :=
  coreRun_succ_next core n s t h

/-- A state that a step leaves alone stays for ever. -/
theorem run_of_step_self (n : Nat) (s : State) (h : step s = .next s) : Host.Core.run core n s = .next s := by
  induction n with
  | zero => rfl
  | succ n ih => rw [run_succ_of_step n s s h, ih]

end Sys2Proof.Machine
end

