-- ==== Sys2Proof/Tests/Slice0.lean ====
section
/-! SUPPORT. Tests. Expected results come from the encodings of R48 and the vectors V1 to V36 of 95_test_vectors.md; the
names say which. Then one witness for each statement that has hypotheses. -/

namespace Sys2Proof.Tests

open Sys2Proof Sys2Proof.Machine

/-- The start state of a vector, `(RA, RB, RO, carry, zero, pc)` with the word in slot pc, `MEM_SIZE = 9`. -/
def start (ra rb ro : Nibble) (carry zero : Bool) (pc : Nat) (w : Byte) : State :=
  { State.reset with ra := ra, rb := rb, ro := ro, carry := carry, zero := zero, pc := pc, imem := [(pc, w)] }

/-- The end state of a vector and its warnings. -/
structure EndState where
  ra : Nibble
  rb : Nibble
  ro : Nibble
  carry : Bool
  zero : Bool
  pc : Nat
  warnings : List Warning
  deriving DecidableEq, Repr

def shown : Host.Outcome State Fault Refusal → Option EndState
  | .next t => some ⟨t.ra, t.rb, t.ro, t.carry, t.zero, t.pc, t.warnings⟩
  | .fault _ => none
  | .refused _ => none

/-! ## WellFormed: an ill-formed term for each check -/

theorem test_illFormed : Instr.wellFormed (.clra 15) = false ∧ Instr.wellFormed (.oneb 1) = false ∧
    Instr.wellFormed (.outa 11) = false ∧ Instr.wellFormed (.addb 10) = false ∧ Instr.wellFormed (.noj 7) = false := by
  decide

theorem test_notAssemblable : Instr.assemblable (.clra 15) = false ∧ Instr.assemblable (.oneb 5) = false ∧
    Instr.assemblable (.outa 1) = false ∧ Instr.assemblable (.addb 1) = false ∧ Instr.assemblable (.noj 7) = false ∧
    Instr.assemblable (.lda 0) = false ∧ Instr.assemblable (.ldb 1) = false ∧ Instr.assemblable (.jc 0) = false := by
  decide

theorem test_unknownNotAssemblable : Instr.assemblable (.unk9 0) = false ∧ Instr.assemblable (.unkA 0) = false ∧
    Instr.assemblable (.unkB 0) = false ∧ Instr.assemblable (.unkC 0) = false ∧ Instr.assemblable (.unkD 0) = false ∧
    Instr.assemblable (.unkE 0) = false ∧ Instr.assemblable (.unkF 0) = false := by
  decide

/-! ## Decoding: words written out from the word column of R48 -/

theorem test_decode_clra : decode 0b00000000#8 = .clra 0 ∧ decode 0b00001111#8 = .clra 15 := by decide
theorem test_decode_oneb : decode 0b00010000#8 = .oneb 0 ∧ decode 0b00010101#8 = .oneb 5 := by decide
theorem test_decode_outa : decode 0b00100000#8 = .outa 0 ∧ decode 0b00101011#8 = .outa 11 := by decide
theorem test_decode_addb : decode 0b00110000#8 = .addb 0 ∧ decode 0b00111010#8 = .addb 10 := by decide
theorem test_decode_noj : decode 0b01000000#8 = .noj 0 ∧ decode 0b01000111#8 = .noj 7 := by decide
theorem test_decode_lda : decode 0b01010101#8 = .lda 5 ∧ decode 0b01011111#8 = .lda 15 := by decide
theorem test_decode_ldb : decode 0b01100011#8 = .ldb 3 ∧ decode 0b01101111#8 = .ldb 15 := by decide
theorem test_decode_jc : decode 0b01110000#8 = .jc 0 ∧ decode 0b01111111#8 = .jc 15 := by decide
theorem test_decode_j : decode 0b10000010#8 = .j 2 ∧ decode 0b10001111#8 = .j 15 := by decide
theorem test_decode_unk9 : decode 0b10010000#8 = .unk9 0 ∧ decode 0b10011010#8 = .unk9 10 := by decide
theorem test_decode_unkA : decode 0b10100000#8 = .unkA 0 := by decide
theorem test_decode_unkB : decode 0b10110011#8 = .unkB 3 := by decide
theorem test_decode_unkC : decode 0b11000000#8 = .unkC 0 := by decide
theorem test_decode_unkD : decode 0b11010111#8 = .unkD 7 := by decide
theorem test_decode_unkE : decode 0b11100000#8 = .unkE 0 := by decide
theorem test_decode_unkF : decode 0b11110000#8 = .unkF 0 ∧ decode 0b11111111#8 = .unkF 15 := by decide
theorem test_decodeTableWord : decodeTableWord 8 0x9A = some (.unk9 10) ∧ decodeTableWord 16 0x9A = none := by decide
theorem test_decodeBytes : decodeBytes [] = .error .noWord ∧ decodeBytes [0x63, 0x30] = .ok (.ldb 3, [0x30]) :=
  ⟨rfl, rfl⟩

/-! ## One step: the vectors of 95_test_vectors.md section 2.5 -/

theorem test_V1_clra : shown (step (start 9 3 0 true false 2 0x00)) = some ⟨0, 3, 0, true, false, 3, []⟩ := by decide
theorem test_V4_oneb : shown (step (start 0 1 0 true true 1 0x10)) = some ⟨0, 1, 0, true, true, 2, []⟩ := by decide
theorem test_partition_oneb_0x15 :
    shown (step (start 9 3 7 true false 2 0x15)) = some ⟨9, 1, 7, true, false, 3, []⟩ := by decide
theorem test_V5_outa : shown (step (start 5 8 0 false false 3 0x20)) = some ⟨5, 8, 5, false, false, 4, []⟩ := by decide
theorem test_V6_outa : shown (step (start 0 8 7 false false 3 0x20)) = some ⟨0, 8, 0, false, false, 4, []⟩ := by decide
theorem test_V8_lda : shown (step (start 7 0 0 true true 4 0x50)) = some ⟨0, 0, 0, true, true, 5, []⟩ := by decide
theorem test_V9_lda : shown (step (start 0 0 0 false false 0 0x5F)) = some ⟨15, 0, 0, false, false, 1, []⟩ := by decide
theorem test_V10_ldb : shown (step (start 5 0 0 false false 1 0x63)) = some ⟨5, 3, 0, false, false, 2, []⟩ := by decide
theorem test_V11_ldb : shown (step (start 5 9 0 true false 1 0x60)) = some ⟨5, 0, 0, true, false, 2, []⟩ := by decide
theorem test_V15_addb : shown (step (start 15 1 0 false false 0 0x30)) = some ⟨15, 0, 0, true, true, 1, []⟩ := by decide
theorem test_V18_addb : shown (step (start 7 8 0 true true 0 0x30)) = some ⟨7, 15, 0, false, false, 1, []⟩ := by decide
theorem test_V20_noj : shown (step (start 5 4 5 true false 6 0x40)) = some ⟨5, 4, 5, true, false, 7, []⟩ := by decide
theorem test_partition_noj_0x47 :
    shown (step (start 9 3 7 true false 2 0x47)) = some ⟨9, 3, 7, true, false, 3, []⟩ := by decide
theorem test_V22_jc : shown (step (start 0 0 0 true false 3 0x70)) = some ⟨0, 0, 0, true, false, 0, []⟩ := by decide
theorem test_V27_jc : shown (step (start 5 4 0 false true 3 0x75)) = some ⟨5, 4, 0, false, true, 4, []⟩ := by decide
theorem test_V29_j : shown (step (start 5 5 0 false false 4 0x82)) = some ⟨5, 5, 0, false, false, 2, []⟩ := by decide
theorem test_V32_j : shown (step (start 5 5 0 false false 7 0x8F)) = some ⟨5, 5, 0, false, false, 15, []⟩ := by decide
theorem test_V34_unk9 : shown (step (start 15 0 15 true true 6 0x9A)) =
    some ⟨15, 0, 15, true, true, 7, [⟨6, 0x9A⟩]⟩ := by decide
theorem test_partition_unkA : shown (step (start 9 3 7 true false 2 0xA0)) =
    some ⟨9, 3, 7, true, false, 3, [⟨2, 0xA0⟩]⟩ := by decide
theorem test_partition_unkB : shown (step (start 9 3 7 true false 2 0xB3)) =
    some ⟨9, 3, 7, true, false, 3, [⟨2, 0xB3⟩]⟩ := by decide
theorem test_partition_unkC : shown (step (start 9 3 7 true false 2 0xC0)) =
    some ⟨9, 3, 7, true, false, 3, [⟨2, 0xC0⟩]⟩ := by decide
theorem test_partition_unkD : shown (step (start 9 3 7 true false 2 0xD7)) =
    some ⟨9, 3, 7, true, false, 3, [⟨2, 0xD7⟩]⟩ := by decide
theorem test_partition_unkE : shown (step (start 9 3 7 true false 2 0xE0)) =
    some ⟨9, 3, 7, true, false, 3, [⟨2, 0xE0⟩]⟩ := by decide
theorem test_V35_unkF : shown (step (start 1 2 3 false false 8 0xFF)) =
    some ⟨1, 2, 3, false, false, 9, [⟨8, 0xFF⟩]⟩ := by decide

/-- H3 and H4: Halted at 9 and at 15. -/
theorem test_halted : shown (step (start 5 4 5 true false 9 0x00)) = some ⟨5, 4, 5, true, false, 9, []⟩ ∧
    shown (step (start 5 4 5 true false 15 0x00)) = some ⟨5, 4, 5, true, false, 15, []⟩ := by decide

/-- The ALU tables 2.1 and 2.2, one cell with a carry or borrow and one without. -/
theorem test_alu_tables : add4 9 8 = (1, true) ∧ add4 7 8 = (15, false) ∧ sub4 2 5 = (0xD, true) ∧ sub4 5 2 = (3, false) := by
  decide

/-- E4, R59 and table 2.3: refused and accepted lines. -/
theorem test_encode_refused : encodeLine ['R', 'A', '=', '1', '6'] = .error .invalidInstruction ∧
    encodeLine ['R', 'A', '=', '-', '1'] = .error .invalidInstruction ∧
    encodeLine ['X', 'Y', 'Z'] = .error .invalidInstruction ∧
    encodeLine ['R', 'A', '=', '0', '5'] = .error .invalidInstruction ∧
    encodeLine ['J', '='] = .error .invalidInstruction := ⟨rfl, rfl, rfl, rfl, rfl⟩

theorem test_encode_accepted : encodeLine [' ', 'R', 'A', '=', '5', ' '] = .ok 0x55 ∧
    encodeLine ['R', 'A', '=', '0'] = .ok 0x00 ∧ encodeLine ['J', 'C', '=', '0'] = .ok 0x40 ∧
    encodeLine ['J', 'C', '=', '1', '5'] = .ok 0x7F ∧ encodeLine ['J', '=', '1', '0'] = .ok 0x8A := ⟨rfl, rfl, rfl, rfl, rfl⟩

/-- R64: `RA=5` is the line 01010101 and `J=2` the line 10000010. -/
theorem test_image_lines : parseImageLine ['0', '1', '0', '1', '0', '1', '0', '1'] = some 0x55 ∧
    parseImageLine ['1', '0', '0', '0', '0', '0', '1', '0'] = some 0x82 ∧ parseImageLine ['1', '0'] = none := by
  decide

/-- The word placed for the host's question is the one the next step runs, from reset and from Halted. -/
theorem test_withFetchWord : shown (step (State.reset.withFetchWord 8 0x63)) = some ⟨0, 3, 0, false, false, 1, []⟩ ∧
    shown (step ((start 5 4 5 true false 15 0x00).withFetchWord 8 0x82)) = some ⟨5, 4, 5, true, false, 2, []⟩ := by
  decide

/-- R71 and R137: `warn_unknown` during a step of an unknown word, not while reset is asserted too. -/
theorem test_warn_port : (ports false true (start 1 2 3 false false 8 0x90)).warnUnknown = true ∧
    (ports true true (start 1 2 3 false false 8 0x90)).warnUnknown = false ∧
    (ports false true (start 1 2 3 false false 8 0x8F)).warnUnknown = false := by decide

/-- R84 and log entry 23: one step is counted before the unknown word stops the run under the policy fatal. -/
theorem test_stopped_step_not_counted :
    runToCompletion 9 (launchState 2 .fatal [0x55, 0x9A]) = .stopped (.unknownOpcodeFatal 1 0x9A) 1 := by decide

/-- The optional trace record of R82, before and after the step: the fetch slot and word in both. -/
theorem test_trace : traceRecord .before (start 5 3 0 false false 2 0x30) = some ⟨2, 0x30, 5, 3, 0, false, false⟩ ∧
    traceRecord .after (start 5 3 0 false false 2 0x30) = some ⟨2, 0x30, 5, 8, 0, false, false⟩ := by
  decide

/-! ## Witnesses: concrete values that meet all hypotheses of a statement -/

/-- A launched machine: the source's scenario E1 with `MEM_SIZE = 4`. -/
def scenario : State := launchState 4 .continues [0x55, 0x63, 0x30, 0x20]

theorem witness_OperandIgnoredByFixedForms :
    (opcodeField 0x4F#8).toNat ≤ 4 ∧ operandField 0x4F#8 ≠ 0 ∧ (opcodeField 0x00#8).toNat ≤ 4 := by decide
theorem witness_SameEffectWords : (start 0 0 0 true false 3 0x70).carry = true := rfl
theorem witness_AluLaws : (15 : Nibble) ≠ 0 := by decide
theorem witness_JumpOutOfMemoryHalts :
    (start 5 4 0 true false 3 0x79).memSize ≤ (9 : Nibble).toNat ∧ (start 5 4 0 true false 3 0x79).carry = true := by
  decide
theorem witness_UnknownOpcodeWarnsAndFallsThrough : (start 15 0 15 true true 6 0x9A).policy = .continues := rfl
theorem witness_FatalPolicyFaultsOnUnknownOnly :
    ({ State.reset with policy := .fatal } : State).policy = .fatal ∧ Instr.isUnknown (.unk9 0) = true ∧
      Instr.isUnknown (.unkF 15) = true ∧ Instr.isUnknown (.j 15) = false := by decide
theorem witness_UnknownDiffersFromNojInWarningOnly :
    Instr.isUnknown (.unkF 15) = true ∧ (start 1 2 3 false false 8 0xFF).policy = .continues := by decide
theorem witness_StepRunsDecodedWord :
    (start 5 3 0 false false 8 0x30).Running ∧ (start 5 3 0 false false 8 0x30).imem.read 8 = some 0x30 := by decide
theorem witness_WholeStepByOpcode : (start 15 1 0 false false 0 0x30).Running ∧
    (start 15 1 0 false false 0 0x30).imem.read 0 = some 0x30 ∧
    (start 15 1 0 false false 0 0x30).policy = .continues := by decide
theorem witness_ControlTableRealisesStep : (start 0 0 0 true false 3 0x70).Running ∧
    (start 0 0 0 true false 3 0x70).imem.read 3 = some 0x70 ∧ (start 0 0 0 true false 3 0x70).policy = .continues := by
  decide
theorem witness_InstructionFrames_ra : ∃ t, exec (.lda 5) State.reset = .next t ∧ t.ra ≠ State.reset.ra :=
  ⟨_, rfl, by decide⟩
theorem witness_InstructionFrames_rb : ∃ t, exec (.ldb 5) State.reset = .next t ∧ t.rb ≠ State.reset.rb :=
  ⟨_, rfl, by decide⟩
theorem witness_InstructionFrames_ro : ∃ t, exec (.outa 0) (start 5 0 0 false false 0 0) = .next t ∧ t.ro ≠ 0 :=
  ⟨_, rfl, by decide⟩
theorem witness_InstructionFrames_flags : ∃ t, exec (.addb 0) State.reset = .next t ∧ t.zero ≠ State.reset.zero :=
  ⟨_, rfl, by decide⟩
theorem witness_InstructionFrames_pc : ∃ t, exec (.j 15) State.reset = .next t ∧ t.pc ≠ State.reset.pc + 1 :=
  ⟨_, rfl, by decide⟩
theorem witness_InstructionFrames_warnings : ∃ t, exec (.unkF 0) State.reset = .next t ∧ t.warnings ≠ [] :=
  ⟨_, rfl, by decide⟩
theorem witness_AtMostOneRegisterWritten :
    ∃ t, step (start 15 1 0 false false 0 0x30) = .next t ∧ t.carry ≠ (start 15 1 0 false false 0 0x30).carry :=
  ⟨_, rfl, by decide⟩
theorem witness_OneWarningPerUnknownWord : ∃ t, step (start 1 2 3 false false 8 0x90) = .next t ∧
    (start 1 2 3 false false 8 0x90).fetched = some 0x90 ∧ (decode 0x90).isUnknown = true := ⟨_, rfl, by decide⟩
theorem witness_OneWarningPerUnknownWord_none : ∃ t, step (start 1 2 3 false false 8 0x8F) = .next t ∧
    ∀ w, (start 1 2 3 false false 8 0x8F).fetched = some w → (decode w).isUnknown = false :=
  ⟨_, rfl, fun w h => by
    obtain rfl : (0x8F#8) = w := Option.some.inj (Eq.trans (by decide) h)
    decide⟩
theorem witness_OutputsNeverInfluenceTheRun : ∃ t, Host.Core.run core 2 scenario = .next t := ⟨_, rfl⟩
theorem witness_HaltedIsTerminal : (start 5 4 5 true false 9 0).memSize ≤ (start 5 4 5 true false 9 0).pc := by decide
theorem witness_UnpopulatedSlotFaults :
    State.reset.pc < State.reset.memSize ∧ State.reset.imem.read State.reset.pc = none := by decide
theorem witness_SelfJumpRunsForEver_j : (start 5 5 0 false false 4 0x84).Running ∧
    (start 5 5 0 false false 4 0x84).imem.read 4 = some 0x84 ∧ (4 : Nibble).toNat = 4 ∧ decode 0x84#8 = .j 4 := by decide
theorem witness_SelfJumpRunsForEver_jc : (start 5 4 0 true true 3 0x73).Running ∧
    (start 5 4 0 true true 3 0x73).imem.read 3 = some 0x73 ∧ (3 : Nibble).toNat = 3 ∧ decode 0x73#8 = .jc 3 ∧
    (start 5 4 0 true true 3 0x73).carry = true := by decide
theorem test_launched : scenario.Launched ∧ scenario.policy = .continues := by decide

/-- The slots of the scenario hold no jump. -/
theorem witness_JumpFreeRunHaltsAtMemSize : scenario.Launched ∧ scenario.policy = .continues ∧
    scenario.pc ≤ scenario.memSize ∧ scenario.memSize - scenario.pc ≤ 4 ∧
    ∀ a w, scenario.pc ≤ a → scenario.imem.read a = some w → (decode w).isJump = false := by
  refine ⟨by decide, rfl, by decide, by decide, fun a w _ h => ?_⟩
  have key : ∀ m : Memory, (∀ c ∈ m, (decode c.2).isJump = false) → Memory.read m a = some w →
      (decode w).isJump = false := by
    intro m
    induction m with
    | nil => intro _ hr; cases hr
    | cons c m ih =>
      intro hm hr
      rw [Memory.read] at hr
      split at hr
      · exact Option.some.inj hr ▸ hm c (by simp)
      · exact ih (fun d hd => hm d (by simp [hd])) hr
  exact key scenario.imem (by decide) h

/-- E1: four steps, final state (5, 8, 5, 0, 0, 4). -/
theorem witness_CompletionMatchesSingleSteps : ∃ t, runToCompletion 4 scenario = .final t 4 ∧
    Host.Core.run core 4 scenario = .next t ∧ t.Halted ∧ t.ro = 5 := ⟨_, rfl, rfl, by decide, rfl⟩
theorem witness_StepKeepsInvariant : ∃ t, scenario.Inv ∧ step scenario = .next t := ⟨_, by decide, rfl⟩
theorem witness_PcFitsAnyAllowedWidth : ∃ t, (start 5 5 0 false false 7 0x8F).PcBounded ∧
    Config.PcWidthFits Config.canonicalPcWidth (start 5 5 0 false false 7 0x8F).memSize ∧
    step (start 5 5 0 false false 7 0x8F) = .next t := ⟨_, by decide, by decide, rfl⟩
theorem witness_RunNeverChangesTheImage : ∃ t, Host.Core.run core 3 scenario = .next t := ⟨_, rfl⟩
theorem witness_LaunchedRunNeverStops : scenario.Launched ∧ scenario.policy = .continues := test_launched
theorem witness_RunStateAfterReset : 1 ≤ scenario.memSize ∧ (launchState 0 .continues []).memSize = 0 := by decide
theorem witness_FirstStepAfterResetRunsSlotZero : 1 ≤ scenario.memSize ∧ scenario.imem.read 0 = some 0x55 := by decide
theorem witness_CorruptImageRefusesLaunch :
    (∃ r ∈ ([[true, false]] : List RawWord), r.length ≠ 8) ∧
    (∃ l ∈ ([['0', '1', '0', '1', '0', '1', '0', '2']] : List Line), ¬ (l.length = 8 ∧ ∀ c ∈ l, c = '0' ∨ c = '1')) :=
  ⟨⟨_, List.mem_singleton.mpr rfl, by decide⟩, ⟨_, List.mem_singleton.mpr rfl, fun h => absurd (h.2 '2' (by simp)) (by decide)⟩⟩
theorem witness_LaunchLoadsTheImage : [0x55#8].length ≠ 9 ∧ [0x55#8, 0x63, 0x30, 0x20].length = 4 := by decide
/-- N12 and R62: 0x50, 0x61 and 0x70 have no mnemonic, and 0x70 is listed by its bits. -/
theorem test_listing : mnemonicText (.lda 0) = none ∧ mnemonicText (.ldb 1) = none ∧ mnemonicText (.jc 0) = none ∧
    listingLine (.jc 0) = ['0', '1', '1', '1', '0', '0', '0', '0'] ∧
    listingLine (.jc 15) = ['J', 'C', '=', '1', '5'] := ⟨rfl, rfl, rfl, rfl, rfl⟩
theorem witness_ListingNamesNoOtherWord : encodeLine (listingLine (.jc 15)) = .ok 0x7F := rfl
theorem witness_MnemonicRoundTrip : Instr.assemblable (.jc 15) = true ∧ Instr.assemblable (.addb 0) = true := by decide
theorem witness_AssembleTakesEncodingLines : encodeLine ['J', '=', '9'] = .ok 0x89 ∧ trim [' ', ' '] = [] ∧
    encodeLine ['R', 'A', '=', '1', '6'] = .error .invalidInstruction ∧ trim ['R', 'A', '=', '1', '6'] ≠ [] :=
  ⟨rfl, rfl, rfl, by decide⟩

end Sys2Proof.Tests
end

section
/-! Reset and the six architectural elements (10_state.md, R24). -/

open Sys2Proof Sys2Proof.Machine

namespace Sys2Proof.Machine

/-- Reset changes nothing in the reset state, so what holds after every reset holds of `State.reset` too. -/
@[simp] theorem State.applyReset_reset : State.reset.applyReset = State.reset := rfl

/-- R24 of reset in any state: the six elements take their reset values and the instruction memory is kept. -/
theorem State.applyReset_elements (s : State) :
    s.applyReset.ra = 0 ∧ s.applyReset.rb = 0 ∧ s.applyReset.ro = 0 ∧ s.applyReset.carry = false ∧
      s.applyReset.zero = false ∧ s.applyReset.pc = 0 ∧ s.applyReset.imem = s.imem :=
  ⟨s.applyReset_ra, s.applyReset_rb, s.applyReset_ro, s.applyReset_carry, s.applyReset_zero, s.applyReset_pc,
    s.applyReset_imem⟩

end Sys2Proof.Machine

/-- Settles O41: the reset state is a fixed point of reset, so its elements are those that reset gives any state. -/
theorem resetState : Obligations.ResetState := by
  unfold Obligations.ResetState
  refine ⟨?_, State.applyReset_elements⟩
  obtain ⟨hra, hrb, hro, hcarry, hzero, hpc, -⟩ := State.applyReset_elements State.reset
  rw [State.applyReset_reset] at hra hrb hro hcarry hzero hpc
  exact ⟨hra, hrb, hro, hcarry, hzero, hpc⟩

end

section
/-! The fields of a word (R46, R74) and the instruction that decoding makes of them (R48, R52). -/

open Sys2Proof

namespace Sys2Proof.Laws

/-- The opcode field is the word's high hexadecimal digit. -/
theorem opcodeField_toNat (w : Byte) : (opcodeField w).toNat = w.toNat / 16 := by
  have bound : w.toNat < 256 := w.isLt
  calc (opcodeField w).toNat
      = w.toNat / 16 % 16 := by rw [opcodeField, BitVec.extractLsb'_toNat, Nat.shiftRight_eq_div_pow]
    _ = w.toNat / 16 := Nat.mod_eq_of_lt (by omega)

/-- The operand field is the word's low hexadecimal digit. -/
theorem operandField_toNat (w : Byte) : (operandField w).toNat = w.toNat % 16 := by
  rw [operandField, BitVec.extractLsb'_toNat, Nat.shiftRight_zero]

/-- A nibble is known by its four bits, the highest first as `instrOf` reads them. -/
theorem nibble_eq_of_bits {a b : Nibble} (h3 : a.getLsbD 3 = b.getLsbD 3) (h2 : a.getLsbD 2 = b.getLsbD 2)
    (h1 : a.getLsbD 1 = b.getLsbD 1) (h0 : a.getLsbD 0 = b.getLsbD 0) : a = b := by
  apply BitVec.eq_of_getLsbD_eq
  intro i hi
  match i, hi with
  | 0, _ => exact h0
  | 1, _ => exact h1
  | 2, _ => exact h2
  | 3, _ => exact h3

/-- Each row of the opcode map is selected by the opcode it carries (R48). -/
@[simp] theorem instrOf_opcode (op k : Nibble) : (instrOf op k).opcode = op := by
  unfold instrOf
  split <;> next h3 h2 h1 h0 =>
    apply nibble_eq_of_bits <;> simp only [Instr.opcode, h3, h2, h1, h0] <;> decide

/-- Every row of the opcode map passes its operand on, used or not (R49). -/
@[simp] theorem instrOf_operand (op k : Nibble) : (instrOf op k).operand = k := by
  unfold instrOf
  split <;> rfl

end Sys2Proof.Laws

/-- Settles O2: the fields are quotient and remainder by 16, and every row of the opcode map keeps both. -/
theorem decodeSplitsTheWord : Obligations.DecodeSplitsTheWord := by
  unfold Obligations.DecodeSplitsTheWord
  intro w
  exact ⟨Laws.opcodeField_toNat w, Laws.operandField_toNat w, Laws.instrOf_opcode _ _, Laws.instrOf_operand _ _⟩

end

section
/-! The register load and move instructions (41_register_load.md): each word decodes to the instruction it was encoded
from, and each meaning is one register write and a fall-through. -/

open Sys2Proof Sys2Proof.Machine

namespace Sys2Proof.Laws

/-- Every instruction is the row that its opcode selects in the opcode map (R48). -/
@[simp] theorem instrOf_opcode_operand (i : Instr) : instrOf i.opcode i.operand = i := by
  cases i <;> simp [instrOf, Instr.opcode, Instr.operand]

/-- No instruction loses a bit on the way through its word (R46, R49, R74). -/
@[simp] theorem decode_encode (i : Instr) : decode (encode i) = i := by
  rw [decode, encode, opcodeField_wordOf, operandField_wordOf, instrOf_opcode_operand]

end Sys2Proof.Laws

namespace Sys2Proof.Machine

/-! The whole state after a register write that falls through. -/

theorem State.setRa_fallThrough (s : State) (v : Nibble) :
    (s.setRa v).fallThrough = { s with ra := v, pc := s.pc + 1 } := rfl

theorem State.setRb_fallThrough (s : State) (v : Nibble) :
    (s.setRb v).fallThrough = { s with rb := v, pc := s.pc + 1 } := rfl

theorem State.setRo_fallThrough (s : State) (v : Nibble) :
    (s.setRo v).fallThrough = { s with ro := v, pc := s.pc + 1 } := rfl

/-! The meanings through the named operations on the state: the three fixed forms do not mention their operand, the two
immediate forms load it as it stands (R47). -/

@[simp] theorem exec_clra (k : Nibble) (s : State) : exec (.clra k) s = .next (s.setRa 0).fallThrough := rfl

@[simp] theorem exec_oneb (k : Nibble) (s : State) : exec (.oneb k) s = .next (s.setRb 1).fallThrough := rfl

@[simp] theorem exec_outa (k : Nibble) (s : State) : exec (.outa k) s = .next (s.setRo s.ra).fallThrough := rfl

@[simp] theorem exec_lda (k : Nibble) (s : State) : exec (.lda k) s = .next (s.setRa k).fallThrough := rfl

@[simp] theorem exec_ldb (k : Nibble) (s : State) : exec (.ldb k) s = .next (s.setRb k).fallThrough := rfl

end Sys2Proof.Machine

/-- Settles O7: the word is the encoding of `RA=0` with that operand field, whose meaning writes RA only. -/
theorem clraClearsRa : Obligations.ClraClearsRa := by
  unfold Obligations.ClraClearsRa
  intro k s
  exact ⟨Laws.decode_encode (.clra k), by rw [exec_clra, State.setRa_fallThrough]⟩

/-- Settles O8: the word is the encoding of `RB=1` with that operand field, whose meaning writes RB only. -/
theorem onebSetsRb : Obligations.OnebSetsRb := by
  unfold Obligations.OnebSetsRb
  intro k s
  exact ⟨Laws.decode_encode (.oneb k), by rw [exec_oneb, State.setRb_fallThrough]⟩

/-- Settles O9: the word is the encoding of `RO=RA` with that operand field, whose meaning writes RO only. -/
theorem outaCopiesRaToRo : Obligations.OutaCopiesRaToRo := by
  unfold Obligations.OutaCopiesRaToRo
  intro k s
  exact ⟨Laws.decode_encode (.outa k), by rw [exec_outa, State.setRo_fallThrough]⟩

/-- Settles O10: the word is the encoding of `RA=<imm>`, whose meaning writes the immediate to RA. -/
theorem ldaLoadsRa : Obligations.LdaLoadsRa := by
  unfold Obligations.LdaLoadsRa
  intro k s
  exact ⟨Laws.decode_encode (.lda k), by rw [exec_lda, State.setRa_fallThrough]⟩

/-- Settles O11: the word is the encoding of `RB=<imm>`, whose meaning writes the immediate to RB. -/
theorem ldbLoadsRb : Obligations.LdbLoadsRb := by
  unfold Obligations.LdbLoadsRb
  intro k s
  exact ⟨Laws.decode_encode (.ldb k), by rw [exec_ldb, State.setRb_fallThrough]⟩

end

section
/-! The ALU and the add instruction (42_alu.md): what each function answers as arithmetic, when its result is 0, and the
flags both give. -/

open Sys2Proof Sys2Proof.Machine

namespace Sys2Proof.Machine

/-! `add4` (R100): the two components of its outcome as natural numbers, when the first is 0, and how they make up the
sum. -/

theorem add4_fst_toNat (a b : Nibble) : (add4 a b).1.toNat = (a.toNat + b.toNat) % 16 :=
  BitVec.toNat_ofNat _ _

theorem add4_snd (a b : Nibble) : (add4 a b).2 = decide (15 < a.toNat + b.toNat) := rfl

theorem add4_fst_eq_zero_iff (a b : Nibble) : (add4 a b).1 = 0 ↔ (a.toNat + b.toNat) % 16 = 0 := by
  rw [← BitVec.toNat_inj, add4_fst_toNat, BitVec.ofNat_eq_ofNat, BitVec.toNat_zero]

/-- The carry-out and the result are the two hexadecimal digits of the sum, which is at most 30. -/
theorem add4_exact (a b : Nibble) : 16 * (add4 a b).2.toNat + (add4 a b).1.toNat = a.toNat + b.toNat := by
  have ha : a.toNat < 16 := a.isLt
  have hb : b.toNat < 16 := b.isLt
  rw [add4_fst_toNat, add4_snd]
  by_cases carry : 15 < a.toNat + b.toNat
  · rw [decide_eq_true carry, Bool.toNat_true]
    omega
  · rw [decide_eq_false carry, Bool.toNat_false]
    omega

/-! `sub4` (R101), in the same order. -/

theorem sub4_fst_toNat (a b : Nibble) : ((sub4 a b).1.toNat : Int) = ((a.toNat : Int) - b.toNat) % 16 := by
  rw [sub4, BitVec.toNat_ofInt]
  exact Int.toNat_of_nonneg (Int.emod_nonneg _ (by decide))

theorem sub4_snd (a b : Nibble) : (sub4 a b).2 = decide (a.toNat < b.toNat) :=
  decide_eq_decide.mpr (by omega)

/-- Two nibbles differ by less than 16, so only equal ones have a difference that is 0 modulo 16. -/
theorem sub4_fst_eq_zero_iff (a b : Nibble) : (sub4 a b).1 = 0 ↔ a = b := by
  have ha : a.toNat < 16 := a.isLt
  have hb : b.toNat < 16 := b.isLt
  have value := sub4_fst_toNat a b
  rw [← BitVec.toNat_inj, ← BitVec.toNat_inj, BitVec.ofNat_eq_ofNat, BitVec.toNat_zero]
  omega

/-- A borrow adds 16 to the difference, which is at least -15. -/
theorem sub4_exact (a b : Nibble) :
    ((sub4 a b).1.toNat : Int) - 16 * ((sub4 a b).2.toNat : Int) = (a.toNat : Int) - b.toNat := by
  have ha : a.toNat < 16 := a.isLt
  have hb : b.toNat < 16 := b.isLt
  rw [sub4_fst_toNat, sub4_snd]
  by_cases borrow : a.toNat < b.toNat
  · rw [decide_eq_true borrow, Bool.toNat_true]
    omega
  · rw [decide_eq_false borrow, Bool.toNat_false]
    omega

/-! The flag rule (R102) after either function: the whole state. -/

theorem State.setFlags_add4 (s : State) (a b : Nibble) :
    s.setFlags (add4 a b) =
      { s with carry := decide (15 < a.toNat + b.toNat), zero := decide ((a.toNat + b.toNat) % 16 = 0) } := by
  rw [State.setFlags, beq_eq_decide, add4_snd, decide_eq_decide.mpr (add4_fst_eq_zero_iff a b)]

theorem State.setFlags_sub4 (s : State) (a b : Nibble) :
    s.setFlags (sub4 a b) = { s with carry := decide (a.toNat < b.toNat), zero := decide (a = b) } := by
  rw [State.setFlags, beq_eq_decide, sub4_snd, decide_eq_decide.mpr (sub4_fst_eq_zero_iff a b)]

/-- The meaning of `RB=RA+RB` (R103): the operand field is not mentioned, and all three writes come from the old RA and
RB. -/
@[simp] theorem exec_addb (k : Nibble) (s : State) :
    exec (.addb k) s = .next ((s.setRb (add4 s.ra s.rb).1).setFlags (add4 s.ra s.rb)).fallThrough := rfl

end Sys2Proof.Machine

/-- Settles O12: the result is the sum modulo 16 and the carry-out its upper digit. -/
theorem add4ComputesTheSum : Obligations.Add4ComputesTheSum := by
  unfold Obligations.Add4ComputesTheSum
  intro a b
  exact ⟨add4_fst_toNat a b, by rw [add4_snd, decide_eq_true_iff], add4_exact a b⟩

/-- Settles O13: the result is the difference modulo 16, and the borrow-out says whether 16 was added to it. -/
theorem sub4ComputesTheDifference : Obligations.Sub4ComputesTheDifference := by
  unfold Obligations.Sub4ComputesTheDifference
  intro a b
  exact ⟨sub4_fst_toNat a b, by rw [sub4_snd, decide_eq_true_iff], sub4_exact a b⟩

/-- Settles O14: the ALU invokes `add4` or `sub4`, and the state after the flag rule is known for both. -/
theorem flagRuleOverwritesBoth : Obligations.FlagRuleOverwritesBoth := by
  unfold Obligations.FlagRuleOverwritesBoth
  intro a b s
  exact ⟨s.setFlags_add4 a b, s.setFlags_sub4 a b⟩

/-- Settles O16: the word is the encoding of `RB=RA+RB` with that operand field, whose meaning writes the result of
`add4` to RB and sets the flags from it. -/
theorem addbAddsAndSetsFlags : Obligations.AddbAddsAndSetsFlags := by
  unfold Obligations.AddbAddsAndSetsFlags
  intro k s
  refine ⟨Laws.decode_encode (.addb k), _, exec_addb k s, ?_⟩
  rw [State.setFlags_add4]
  exact ⟨add4_fst_toNat s.ra s.rb, decide_eq_true_iff, decide_eq_true_iff, rfl⟩

end

section
/-! The control-transfer instructions (43_control.md): each meaning is the choice of the next pc, by fall-through or by
jump, and writes nothing else. -/

open Sys2Proof Sys2Proof.Machine

namespace Sys2Proof.Machine

/-! The whole state after each of the two pc updates (R78). The target is the operand field as a number (R47). -/

theorem State.fallThrough_eq (s : State) : s.fallThrough = { s with pc := s.pc + 1 } := rfl

theorem State.jumpTo_eq (s : State) (k : Nibble) : s.jumpTo k = { s with pc := k.toNat } := rfl

/-! The meanings through the pc updates: `JC=0` mentions neither its operand nor carry, `JC=<imm>` has one equation per
value of carry. -/

@[simp] theorem exec_noj (k : Nibble) (s : State) : exec (.noj k) s = .next s.fallThrough := rfl

theorem exec_jc_of_carry (k : Nibble) (s : State) (carry : s.carry = true) :
    exec (.jc k) s = .next (s.jumpTo k) :=
  congrArg Host.Outcome.next (if_pos carry)

theorem exec_jc_of_not_carry (k : Nibble) (s : State) (noCarry : ¬ s.carry = true) :
    exec (.jc k) s = .next s.fallThrough :=
  congrArg Host.Outcome.next (if_neg noCarry)

@[simp] theorem exec_j (k : Nibble) (s : State) : exec (.j k) s = .next (s.jumpTo k) := rfl

end Sys2Proof.Machine

/-- Settles O17: the word is the encoding of `JC=0` with that operand field, whose meaning is the fall-through. -/
theorem nojFallsThrough : Obligations.NojFallsThrough := by
  unfold Obligations.NojFallsThrough
  intro k s
  exact ⟨Laws.decode_encode (.noj k), by rw [exec_noj, State.fallThrough_eq]⟩

/-- Settles O18: the word is the encoding of `JC=<imm>`, whose meaning is the jump with carry and the fall-through
without. -/
theorem jcJumpsIffCarry : Obligations.JcJumpsIffCarry := by
  unfold Obligations.JcJumpsIffCarry
  intro k s
  refine ⟨Laws.decode_encode (.jc k), ?_⟩
  by_cases carry : s.carry = true
  · rw [if_pos carry, exec_jc_of_carry k s carry, State.jumpTo_eq]
  · rw [if_neg carry, exec_jc_of_not_carry k s carry, State.fallThrough_eq]

/-- Settles O19: the word is the encoding of `J=<imm>`, whose meaning is the jump. -/
theorem jJumps : Obligations.JJumps := by
  unfold Obligations.JJumps
  intro k s
  exact ⟨Laws.decode_encode (.j k), by rw [exec_j, State.jumpTo_eq]⟩

end

section
/-! The whole-image check of a launch (70_reset_and_hazards.md, R152): reading an image reads every one of its entries, so
one malformed entry refuses it. -/

open Sys2Proof Sys2Proof.Machine

namespace Sys2Proof.Laws

/-- A checked map over a list succeeds iff it succeeds on every entry, in order. -/
theorem mapM_eq_some_iff {α β : Type} {f : α → Option β} {xs : List α} {ys : List β} :
    xs.mapM f = some ys ↔ List.Forall₂ (fun x y => f x = some y) xs ys := by
  induction xs generalizing ys with
  | nil => simp [eq_comm]
  | cons x xs ih =>
    simp [List.mapM_cons, List.forall₂_cons_left_iff, Option.bind_eq_some_iff, ih, eq_comm (a := ys)]

theorem exists_eq_some_of_mapM {α β : Type} {f : α → Option β} {xs : List α} {ys : List β}
    (all : xs.mapM f = some ys) {x : α} (hx : x ∈ xs) : ∃ y, f x = some y := by
  obtain ⟨i, hi, rfl⟩ := List.mem_iff_getElem.mp hx
  have pointwise := mapM_eq_some_iff.mp all
  exact ⟨_, pointwise.get hi (pointwise.length_eq ▸ hi)⟩

theorem mapM_eq_none_of_mem {α β : Type} {f : α → Option β} {xs : List α} {x : α} (hx : x ∈ xs) (fails : f x = none) :
    xs.mapM f = none := by
  rw [Option.eq_none_iff_forall_ne_some]
  intro ys all
  obtain ⟨y, reads⟩ := exists_eq_some_of_mapM all hx
  simp [fails] at reads

end Sys2Proof.Laws

namespace Sys2Proof.Machine

theorem checkWord_eq_none {r : RawWord} (width : r.length ≠ 8) : checkWord r = none := if_neg width

theorem length_of_checkWord {r : RawWord} {w : Byte} (reads : checkWord r = some w) : r.length = 8 := by
  by_contra width
  simp [checkWord_eq_none width] at reads

theorem binary_of_charBit {c : Char} {b : Bool} (reads : charBit c = some b) : c = '0' ∨ c = '1' := by
  by_contra other
  obtain ⟨notZero, notOne⟩ := not_or.mp other
  simp [charBit, notZero, notOne] at reads

/-- A line that reads as bits has one bit for each character, and every character is a binary digit (R65). -/
theorem binary_of_rawOfLine {l : Line} {r : RawWord} (reads : rawOfLine l = some r) :
    l.length = r.length ∧ ∀ c ∈ l, c = '0' ∨ c = '1' := by
  refine ⟨(Laws.mapM_eq_some_iff.mp reads).length_eq, fun c hc => ?_⟩
  obtain ⟨b, bit⟩ := Laws.exists_eq_some_of_mapM reads hc
  exact binary_of_charBit bit

/-- Only a line of exactly 8 binary characters reads as a word (R63, R65). -/
theorem wellFormed_of_parseImageLine {l : Line} {w : Byte} (reads : parseImageLine l = some w) :
    l.length = 8 ∧ ∀ c ∈ l, c = '0' ∨ c = '1' := by
  obtain ⟨r, bits, word⟩ := Option.bind_eq_some_iff.mp reads
  obtain ⟨length, binary⟩ := binary_of_rawOfLine bits
  exact ⟨length.trans (length_of_checkWord word), binary⟩

theorem parseImageLine_eq_none {l : Line} (malformed : ¬ (l.length = 8 ∧ ∀ c ∈ l, c = '0' ∨ c = '1')) :
    parseImageLine l = none :=
  Option.eq_none_iff_forall_ne_some.mpr fun _ reads => malformed (wellFormed_of_parseImageLine reads)

/-! One entry that does not read refuses the launch (R152), wherever it stands in the image. -/

theorem launch_of_corrupt_word {memSize : Nat} {policy : UnknownOpcodePolicy} {image : List RawWord} {r : RawWord}
    (hr : r ∈ image) (corrupt : checkWord r = none) : launch memSize policy image = .error .corruptProgram := by
  rw [launch, Laws.mapM_eq_none_of_mem hr corrupt]

theorem launchText_of_corrupt_line {memSize : Nat} {policy : UnknownOpcodePolicy} {lines : List Line} {l : Line}
    (hl : l ∈ lines) (corrupt : parseImageLine l = none) :
    launchText memSize policy lines = .error .corruptProgram := by
  rw [launchText, Laws.mapM_eq_none_of_mem hl corrupt]

end Sys2Proof.Machine

/-- Settles O45: the malformed entry does not read as a word, and the check reads every entry. -/
theorem corruptImageRefusesLaunch : Obligations.CorruptImageRefusesLaunch := by
  unfold Obligations.CorruptImageRefusesLaunch
  intro memSize policy
  constructor
  · rintro image ⟨r, hr, width⟩
    exact launch_of_corrupt_word hr (checkWord_eq_none width)
  · rintro lines ⟨l, hl, malformed⟩
    exact launchText_of_corrupt_line hl (parseImageLine_eq_none malformed)

end

section
/-! Every word is the word of the instruction it decodes to (30_encoding.md): a word is its two fields joined (R46), and
decoding keeps both (R74). -/

open Sys2Proof

namespace Sys2Proof.Laws

/-- The word of two fields as a number, `16*op + k` (R46). -/
theorem wordOf_toNat (op k : Nibble) : (wordOf op k).toNat = 16 * op.toNat + k.toNat := by
  have bound : k.toNat < 2 ^ 4 := k.isLt
  rw [wordOf, BitVec.toNat_append, ← Nat.shiftLeft_add_eq_or_of_lt bound, Nat.shiftLeft_eq, Nat.mul_comm]

/-- Joining the two fields of a word gives the word back. -/
@[simp] theorem wordOf_fields (w : Byte) : wordOf (opcodeField w) (operandField w) = w := by
  apply BitVec.eq_of_toNat_eq
  rw [wordOf_toNat, opcodeField_toNat, operandField_toNat, Nat.div_add_mod]

@[simp] theorem decode_opcode (w : Byte) : (decode w).opcode = opcodeField w := instrOf_opcode _ _

@[simp] theorem decode_operand (w : Byte) : (decode w).operand = operandField w := instrOf_operand _ _

@[simp] theorem encode_decode (w : Byte) : encode (decode w) = w := by
  rw [encode, decode_opcode, decode_operand, wordOf_fields]

@[simp] theorem operandField_encode (i : Instr) : operandField (encode i) = i.operand := operandField_wordOf _ _

theorem encode_eq_iff_eq_decode (i : Instr) (w : Byte) : encode i = w ↔ i = decode w :=
  ⟨fun h => by rw [← h, decode_encode], fun h => by rw [h, encode_decode]⟩

theorem decode_wordOf (op k : Nibble) : decode (wordOf op k) = instrOf op k := by
  rw [decode, opcodeField_wordOf, operandField_wordOf]

end Sys2Proof.Laws

/-- Settles O1: an instruction is its row's opcode and its operand, and a word is the same two fields joined. -/
theorem decodeEncodeInverse : Obligations.DecodeEncodeInverse := by
  unfold Obligations.DecodeEncodeInverse
  exact ⟨Laws.decode_encode, Laws.encode_decode⟩

/-- Settles O3: each word is written out in bits, so decoding it is a computation. -/
theorem decodeOfWrittenWords : Obligations.DecodeOfWrittenWords := by
  unfold Obligations.DecodeOfWrittenWords
  decide

/-- Settles O4: the four counts are computed over the 256 words. -/
theorem decodePartition : Obligations.DecodePartition := by
  unfold Obligations.DecodePartition
  decide +kernel

end

section
/-! What executing an instruction can do, said once for all 16 rows (R75): the next state as a function of the instruction
and the state, and when there is one. Every statement about a step or a run below goes through these lemmas. -/

open Sys2Proof Sys2Proof.Machine

namespace Sys2Proof.Machine

/-- The state after an instruction, wherever it completes; `exec_next_iff` says that `exec` answers this state and
no other. -/
def effect (s : State) : Instr → State
  | .clra _ => (s.setRa 0).fallThrough
  | .oneb _ => (s.setRb 1).fallThrough
  | .outa _ => (s.setRo s.ra).fallThrough
  | .addb _ => ((s.setRb (add4 s.ra s.rb).1).setFlags (add4 s.ra s.rb)).fallThrough
  | .noj _ => s.fallThrough
  | .lda k => (s.setRa k).fallThrough
  | .ldb k => (s.setRb k).fallThrough
  | .jc k => { s with pc := if s.carry then jumpTarget k else s.pc + 1 }
  | .j k => s.jumpTo k
  | .unk9 k => (s.warn ⟨s.pc, wordOf 0x9 k⟩).fallThrough
  | .unkA k => (s.warn ⟨s.pc, wordOf 0xA k⟩).fallThrough
  | .unkB k => (s.warn ⟨s.pc, wordOf 0xB k⟩).fallThrough
  | .unkC k => (s.warn ⟨s.pc, wordOf 0xC k⟩).fallThrough
  | .unkD k => (s.warn ⟨s.pc, wordOf 0xD k⟩).fallThrough
  | .unkE k => (s.warn ⟨s.pc, wordOf 0xE k⟩).fallThrough
  | .unkF k => (s.warn ⟨s.pc, wordOf 0xF k⟩).fallThrough

/-! ## When an instruction completes -/

/-- The seven unknown rows share one meaning (R120). -/
theorem exec_of_unknown {i : Instr} (unknown : i.isUnknown = true) (s : State) :
    exec i s = unknownOpcode i.opcode i.operand s := by
  cases i with
  | unk9 k | unkA k | unkB k | unkC k | unkD k | unkE k | unkF k => rfl
  | _ => cases unknown

theorem effect_of_unknown {i : Instr} (unknown : i.isUnknown = true) (s : State) :
    effect s i = (s.warn ⟨s.pc, encode i⟩).fallThrough := by
  cases i with
  | unk9 k | unkA k | unkB k | unkC k | unkD k | unkE k | unkF k => rfl
  | _ => cases unknown

/-- The nine instructions complete in every state, under either policy. -/
theorem exec_of_known {i : Instr} (known : i.isUnknown = false) (s : State) : exec i s = .next (effect s i) := by
  cases i with
  | unk9 k | unkA k | unkB k | unkC k | unkD k | unkE k | unkF k => cases known
  | jc k =>
    by_cases carry : s.carry = true
    · rw [exec_jc_of_carry k s carry, effect, if_pos carry, State.jumpTo]
    · rw [exec_jc_of_not_carry k s carry, effect, if_neg carry, State.fallThrough]
  | _ => rfl

theorem exec_of_continues (i : Instr) {s : State} (policy : s.policy = .continues) :
    exec i s = .next (effect s i) := by
  cases known : i.isUnknown with
  | false => exact exec_of_known known s
  | true =>
    rw [exec_of_unknown known, effect_of_unknown known]
    exact (unknownOpcode_next_iff _ _ s _).mpr ⟨policy, rfl⟩

theorem exec_of_unknown_fatal {i : Instr} (unknown : i.isUnknown = true) {s : State} (policy : s.policy = .fatal) :
    exec i s = .fault (.unknownOpcodeFatal s.pc (encode i)) := by
  rw [exec_of_unknown unknown]
  exact (unknownOpcode_fault_iff _ _ s _).mpr ⟨policy, rfl⟩

/-- An instruction answers one state only, and does so unless it is unknown under the policy `fatal`. -/
theorem exec_next_iff (i : Instr) (s t : State) :
    exec i s = .next t ↔ t = effect s i ∧ (i.isUnknown = true → s.policy = .continues) := by
  cases known : i.isUnknown with
  | false => simp [exec_of_known known, eq_comm]
  | true =>
    rw [exec_of_unknown known, effect_of_unknown known, unknownOpcode_next_iff, and_comm]
    simp [encode]

/-! ## What an instruction leaves unchanged -/

@[simp] theorem effect_imem (s : State) (i : Instr) : (effect s i).imem = s.imem := by cases i <;> rfl

@[simp] theorem effect_memSize (s : State) (i : Instr) : (effect s i).memSize = s.memSize := by cases i <;> rfl

@[simp] theorem effect_policy (s : State) (i : Instr) : (effect s i).policy = s.policy := by cases i <;> rfl

theorem effect_warnings_of_known {i : Instr} (known : i.isUnknown = false) (s : State) :
    (effect s i).warnings = s.warnings := by
  cases i with
  | unk9 k | unkA k | unkB k | unkC k | unkD k | unkE k | unkF k => cases known
  | _ => rfl

theorem effect_warnings_of_unknown {i : Instr} (unknown : i.isUnknown = true) (s : State) :
    (effect s i).warnings = s.warnings ++ [⟨s.pc, encode i⟩] := by
  rw [effect_of_unknown unknown, State.fallThrough_warnings, State.warn_warnings]

theorem effect_ra_cases (s : State) (i : Instr) : (effect s i).ra = s.ra ∨ ∃ k, i = .clra k ∨ i = .lda k := by
  cases i with
  | clra k => exact .inr ⟨k, .inl rfl⟩
  | lda k => exact .inr ⟨k, .inr rfl⟩
  | _ => exact .inl rfl

theorem effect_rb_cases (s : State) (i : Instr) :
    (effect s i).rb = s.rb ∨ ∃ k, i = .oneb k ∨ i = .addb k ∨ i = .ldb k := by
  cases i with
  | oneb k => exact .inr ⟨k, .inl rfl⟩
  | addb k => exact .inr ⟨k, .inr (.inl rfl)⟩
  | ldb k => exact .inr ⟨k, .inr (.inr rfl)⟩
  | _ => exact .inl rfl

theorem effect_ro_cases (s : State) (i : Instr) : (effect s i).ro = s.ro ∨ ∃ k, i = .outa k := by
  cases i with
  | outa k => exact .inr ⟨k, rfl⟩
  | _ => exact .inl rfl

theorem effect_flags_cases (s : State) (i : Instr) :
    ((effect s i).carry = s.carry ∧ (effect s i).zero = s.zero) ∨ ∃ k, i = .addb k := by
  cases i with
  | addb k => exact .inr ⟨k, rfl⟩
  | _ => exact .inl ⟨rfl, rfl⟩

/-- The pc update (R78): the fall-through, or a taken jump to the operand. -/
theorem effect_pc_cases (s : State) (i : Instr) :
    (effect s i).pc = s.pc + 1 ∨
      ∃ k, (effect s i).pc = k.toNat ∧ ((i = .jc k ∧ s.carry = true) ∨ i = .j k) := by
  cases i with
  | jc k =>
    by_cases carry : s.carry = true
    · exact .inr ⟨k, if_pos carry, .inl ⟨rfl, carry⟩⟩
    · exact .inl (if_neg carry)
  | j k => exact .inr ⟨k, rfl, .inr rfl⟩
  | _ => exact .inl rfl

theorem effect_pc_of_not_jump (s : State) {i : Instr} (noJump : i.isJump = false) : (effect s i).pc = s.pc + 1 := by
  obtain fall | ⟨k, -, ⟨rfl, -⟩ | rfl⟩ := effect_pc_cases s i
  · exact fall
  · cases noJump
  · cases noJump

/-- A target is at most 15, so from below `MEM_SIZE` the pc stays within the bound of R17. -/
theorem effect_pcBounded {s : State} (running : s.Running) (i : Instr) : (effect s i).PcBounded := by
  show (effect s i).pc ≤ max 15 (effect s i).memSize
  rw [effect_memSize]
  obtain fall | ⟨k, target, -⟩ := effect_pc_cases s i
  · omega
  · have bound : k.toNat < 16 := k.isLt
    omega

/-! ## What an instruction does not read -/

/-- The policy decides whether an unknown opcode completes, never what an instruction writes. -/
theorem effect_with_policy (s : State) (p : UnknownOpcodePolicy) (i : Instr) :
    effect s i = { effect { s with policy := p } i with policy := s.policy } := by
  cases i <;> rfl

/-- RO, zero and the warning log are read by no instruction: with others in their place, at most they come out
different. -/
theorem effect_with_outputs (s : State) (o : Nibble) (z : Bool) (ws : List Warning) (i : Instr) :
    ∃ o' z' ws', effect { s with ro := o, zero := z, warnings := ws } i =
      { effect s i with ro := o', zero := z', warnings := ws' } := by
  cases i <;> exact ⟨_, _, _, rfl⟩

end Sys2Proof.Machine

/-- Settles O22: the fault of an unknown opcode is known, and no other instruction reads the policy. -/
theorem fatalPolicyFaultsOnUnknownOnly : Obligations.FatalPolicyFaultsOnUnknownOnly := by
  unfold Obligations.FatalPolicyFaultsOnUnknownOnly
  intro i s policy
  refine ⟨fun unknown => exec_of_unknown_fatal unknown policy, fun known => ⟨_, exec_of_known known _, ?_⟩⟩
  rw [exec_of_known known, effect_with_policy s .continues, policy]

/-- Settles O27: the frame of the one state an instruction can answer, field by field. -/
theorem instructionFrames : Obligations.InstructionFrames := by
  unfold Obligations.InstructionFrames
  intro i s t executes
  obtain ⟨rfl, -⟩ := (exec_next_iff i s t).mp executes
  refine ⟨(effect_ra_cases s i).resolve_left, (effect_rb_cases s i).resolve_left, (effect_ro_cases s i).resolve_left,
    fun changed => (effect_flags_cases s i).resolve_left (by tauto), (effect_pc_cases s i).resolve_left,
    fun changed => ?_, fun a => by rw [effect_imem], effect_memSize s i, effect_policy s i⟩
  by_contra known
  exact changed (effect_warnings_of_known (Bool.eq_false_iff.mpr known) s)

end

section
/-! Single steps (40_step_cycle.md): a step is the identity of Halted or the effect of the decoded word in slot pc. What
every step keeps, and which fields it can change, follows from the lemmas about `effect`. -/

open Sys2Proof Sys2Proof.Machine

namespace Sys2Proof.Machine

theorem step_of_halted {s : State} (halted : s.Halted) : step s = .next s := if_pos halted

theorem step_of_word {s : State} {w : Byte} (running : s.Running) (word : s.imem.read s.pc = some w) :
    step s = exec (decode w) s := by
  rw [step, if_neg (Nat.not_le_of_lt running), (fetch_ok_iff s w).mpr word]

theorem step_of_continues {s : State} {w : Byte} (running : s.Running) (word : s.imem.read s.pc = some w)
    (policy : s.policy = .continues) : step s = .next (effect s (decode w)) := by
  rw [step_of_word running word, exec_of_continues _ policy]

theorem step_of_unpopulated {s : State} (running : s.Running) (empty : s.imem.read s.pc = none) :
    step s = .fault (.unpopulatedSlot s.pc) := by
  rw [step, if_neg (Nat.not_le_of_lt running), (fetch_error_iff s _).mpr ⟨empty, rfl⟩]

/-- A step that answers changed nothing in Halted, or had the effect of the word in slot pc. -/
theorem step_effect_cases {s t : State} (steps : step s = .next t) :
    (s.Halted ∧ t = s) ∨
      (s.Running ∧ ∃ w, s.imem.read s.pc = some w ∧ exec (decode w) s = .next t ∧ t = effect s (decode w)) := by
  obtain halted | ⟨running, w, word, executes⟩ := step_next_cases s t steps
  · exact .inl halted
  · exact .inr ⟨running, w, word, executes, ((exec_next_iff _ s t).mp executes).1⟩

/-- No step writes the image or a launch parameter (R21, R36, R4). -/
theorem step_launch_frame {s t : State} (steps : step s = .next t) :
    t.imem = s.imem ∧ t.memSize = s.memSize ∧ t.policy = s.policy := by
  obtain ⟨-, rfl⟩ | ⟨-, w, -, -, rfl⟩ := step_effect_cases steps
  · exact ⟨rfl, rfl, rfl⟩
  · exact ⟨effect_imem s _, effect_memSize s _, effect_policy s _⟩

theorem step_pcBounded {s t : State} (bounded : s.PcBounded) (steps : step s = .next t) : t.PcBounded := by
  obtain ⟨-, rfl⟩ | ⟨running, w, -, -, rfl⟩ := step_effect_cases steps
  · exact bounded
  · exact effect_pcBounded running _

theorem step_inv {s t : State} (inv : s.Inv) (steps : step s = .next t) : t.Inv := by
  obtain ⟨memoryOk, bounded⟩ := inv
  obtain ⟨himem, hmemSize, -⟩ := step_launch_frame steps
  exact ⟨by rwa [State.MemoryOk, himem, hmemSize], step_pcBounded bounded steps⟩

/-! The word a step executes (R31, R73), as the ports and the statements name it. -/

theorem fetched_of_halted {s : State} (halted : s.Halted) : s.fetched = none := if_pos halted

theorem fetched_of_running {s : State} (running : s.Running) : s.fetched = s.imem.read s.pc :=
  if_neg (Nat.not_le_of_lt running)

theorem warnUnknown_of_fetched {s : State} {w : Byte} (fetched : s.fetched = some w) :
    (ports false true s).warnUnknown = (decode w).isUnknown := by
  simp [ports, fetched]

theorem warnUnknown_of_not_fetched {s : State} (fetched : s.fetched = none) :
    (ports false true s).warnUnknown = false := by
  simp [ports, fetched]

/-! Registers and flags: no row of the opcode map writes two registers, and the one that writes the flags is 0x3. -/

theorem effect_keeps_two_registers (s : State) (i : Instr) :
    ((effect s i).ra = s.ra ∧ (effect s i).rb = s.rb) ∨ ((effect s i).ra = s.ra ∧ (effect s i).ro = s.ro) ∨
      ((effect s i).rb = s.rb ∧ (effect s i).ro = s.ro) := by
  cases i with
  | clra k | lda k => exact .inr (.inr ⟨rfl, rfl⟩)
  | oneb k | ldb k | addb k => exact .inr (.inl ⟨rfl, rfl⟩)
  | _ => exact .inl ⟨rfl, rfl⟩

/-- A flag that changed was written by the add instruction, which leaves RA and RO alone. -/
theorem opcode_of_effect_flags {s : State} {i : Instr}
    (changed : (effect s i).carry ≠ s.carry ∨ (effect s i).zero ≠ s.zero) :
    i.opcode = 0x3 ∧ (effect s i).ra = s.ra ∧ (effect s i).ro = s.ro := by
  obtain ⟨carry, zero⟩ | ⟨k, rfl⟩ := effect_flags_cases s i
  · exact absurd carry (changed.resolve_right (not_not_intro zero))
  · exact ⟨rfl, rfl, rfl⟩

/-! The effect as arithmetic on the two fields of the word (R75, R78), one register or flag at a time. -/

theorem effect_ra_toNat (s : State) (i : Instr) :
    (effect s i).ra.toNat =
      if i.opcode.toNat = 0 then 0 else if i.opcode.toNat = 5 then i.operand.toNat else s.ra.toNat := by
  cases i <;> rfl

theorem effect_rb_toNat (s : State) (i : Instr) :
    (effect s i).rb.toNat =
      if i.opcode.toNat = 1 then 1 else if i.opcode.toNat = 3 then (s.ra.toNat + s.rb.toNat) % 16
        else if i.opcode.toNat = 6 then i.operand.toNat else s.rb.toNat := by
  cases i with
  | addb k => exact add4_fst_toNat s.ra s.rb
  | _ => rfl

theorem effect_ro_toNat (s : State) (i : Instr) :
    (effect s i).ro.toNat = if i.opcode.toNat = 2 then s.ra.toNat else s.ro.toNat := by
  cases i <;> rfl

theorem effect_carry (s : State) (i : Instr) :
    (effect s i).carry = if i.opcode.toNat = 3 then decide (15 < s.ra.toNat + s.rb.toNat) else s.carry := by
  cases i <;> rfl

theorem effect_zero (s : State) (i : Instr) :
    (effect s i).zero = if i.opcode.toNat = 3 then decide ((s.ra.toNat + s.rb.toNat) % 16 = 0) else s.zero := by
  cases i with
  | addb k => exact congrArg State.zero (State.setFlags_add4 s s.ra s.rb)
  | _ => rfl

theorem effect_pc (s : State) (i : Instr) :
    (effect s i).pc =
      if i.opcode.toNat = 8 ∨ (i.opcode.toNat = 7 ∧ s.carry = true) then i.operand.toNat else s.pc + 1 := by
  cases i with
  | jc k => simp [effect, Instr.opcode, Instr.operand, jumpTarget]
  | _ => rfl

theorem effect_warnings (s : State) (i : Instr) :
    (effect s i).warnings = s.warnings ++ if 9 ≤ i.opcode.toNat then [⟨s.pc, encode i⟩] else [] := by
  cases i with
  | unk9 k | unkA k | unkB k | unkC k | unkD k | unkE k | unkF k => rfl
  | _ => exact (List.append_nil _).symm

/-- The datapath driven by the control row of an instruction's opcode (R76) has the instruction's effect: each row's write
ports are the fields the instruction writes. -/
theorem effect_eq_datapath (s : State) (i : Instr) :
    effect s i = datapath (controlRow i.opcode) (encode i) s := by
  rw [datapath, Laws.operandField_encode]
  cases i <;> rfl

end Sys2Proof.Machine

/-- Settles O37: the invariant speaks of the image, which no step writes, and of the pc, whose update keeps its bound. -/
theorem stepKeepsInvariant : Obligations.StepKeepsInvariant := by
  unfold Obligations.StepKeepsInvariant
  intro s t inv steps
  exact step_inv inv steps

/-- Settles O38: the bound on the pc holds after the step too, and the width was chosen above it. -/
theorem pcFitsAnyAllowedWidth : Obligations.PcFitsAnyAllowedWidth := by
  unfold Obligations.PcFitsAnyAllowedWidth
  intro s t width bounded fits steps
  obtain ⟨-, hmemSize, -⟩ := step_launch_frame steps
  have below : t.pc < 2 ^ width :=
    calc t.pc ≤ max 15 t.memSize := step_pcBounded bounded steps
      _ = max 15 s.memSize := by rw [hmemSize]
      _ < 2 ^ width := fits
  exact ⟨below, by rw [BitVec.toNat_ofNat, Nat.mod_eq_of_lt below]⟩

/-- Settles O25: the effect of the decoded word, whose opcode and operand are the word's two hexadecimal digits. -/
theorem wholeStepByOpcode : Obligations.WholeStepByOpcode := by
  unfold Obligations.WholeStepByOpcode
  intro s w running word policy
  refine ⟨_, step_of_continues running word policy, ?_⟩
  rw [← Laws.opcodeField_toNat, ← Laws.operandField_toNat, ← Laws.decode_opcode, ← Laws.decode_operand]
  refine ⟨effect_ra_toNat s _, effect_rb_toNat s _, effect_ro_toNat s _, effect_carry s _, effect_zero s _,
    effect_pc s _, ?_⟩
  rw [effect_warnings, Laws.encode_decode]

/-- Settles O26: the step is the effect of the decoded word, which the datapath of its opcode's row computes. -/
theorem controlTableRealisesStep : Obligations.ControlTableRealisesStep := by
  unfold Obligations.ControlTableRealisesStep
  intro s w running word policy
  rw [step_of_continues running word policy, effect_eq_datapath, Laws.decode_opcode, Laws.encode_decode]

/-- Settles O28: in Halted nothing changes, and in Running the effect of the fetched word writes one register at most. -/
theorem atMostOneRegisterWritten : Obligations.AtMostOneRegisterWritten := by
  unfold Obligations.AtMostOneRegisterWritten
  intro s t steps
  obtain ⟨-, rfl⟩ | ⟨running, w, word, -, rfl⟩ := step_effect_cases steps
  · exact ⟨.inl ⟨rfl, rfl⟩, fun changed => by simp at changed⟩
  · refine ⟨effect_keeps_two_registers s _, fun changed => ?_⟩
    obtain ⟨opcode, frame⟩ := opcode_of_effect_flags changed
    exact ⟨⟨w, (fetched_of_running running).trans word, (Laws.decode_opcode w).symm.trans opcode⟩, frame⟩

/-- Settles O29: log and port both ask whether the fetched word is unknown, and in Halted there is no such word. -/
theorem oneWarningPerUnknownWord : Obligations.OneWarningPerUnknownWord := by
  unfold Obligations.OneWarningPerUnknownWord
  intro s t steps
  obtain ⟨halted, rfl⟩ | ⟨running, w, word, -, rfl⟩ := step_effect_cases steps
  · have noWord := fetched_of_halted halted
    exact ⟨fun w fetched _ => by simp [noWord] at fetched, fun _ => ⟨rfl, warnUnknown_of_not_fetched noWord⟩⟩
  · have fetched := (fetched_of_running running).trans word
    rw [fetched, warnUnknown_of_fetched fetched]
    constructor
    · rintro _ ⟨⟩ unknown
      exact ⟨by rw [effect_warnings_of_unknown unknown, Laws.encode_decode], unknown⟩
    · intro known
      exact ⟨effect_warnings_of_known (known w rfl) s, known w rfl⟩

/-- Settles O24: the step of a Running core with a word in slot pc. -/
theorem stepRunsDecodedWord : Obligations.StepRunsDecodedWord := by
  unfold Obligations.StepRunsDecodedWord
  intro s w running word
  exact step_of_word running word

/-- Settles O32: the step of a Running core with no word in slot pc. -/
theorem unpopulatedSlotFaults : Obligations.UnpopulatedSlotFaults := by
  unfold Obligations.UnpopulatedSlotFaults
  intro s running empty
  exact step_of_unpopulated running empty

/-- Settles O43: reset leaves the core Running at slot 0 with the image as it was. -/
theorem firstStepAfterResetRunsSlotZero : Obligations.FirstStepAfterResetRunsSlotZero := by
  unfold Obligations.FirstStepAfterResetRunsSlotZero
  intro s w nonempty word
  exact step_of_word (s := s.applyReset) nonempty word

end

section
/-! Runs (40_step_cycle.md section 3, 70_reset_and_hazards.md section 3): each induction over the number of steps is made
once, for any property of a state or relation of two states, and a statement about runs is then a statement about one
step. -/

open Sys2Proof Sys2Proof.Machine

namespace Sys2Proof.Machine

/-- What every step keeps, every run keeps. -/
theorem run_keeps {P : State → Prop} (keeps : ∀ s t, P s → step s = .next t → P t) (n : Nat) {s t : State} (start : P s)
    (runs : Host.Core.run core n s = .next t) : P t := by
  induction n generalizing s with
  | zero => cases runs; exact start
  | succ n ih =>
    obtain ⟨u, steps, rest⟩ := run_succ_next n s t runs
    exact ih (keeps s u start steps) rest

/-- A property under which a step answers, and which the step keeps, carries a run of any length. -/
theorem run_progress {P : State → Prop} (progress : ∀ s, P s → ∃ u, step s = .next u ∧ P u) (n : Nat) {s : State}
    (start : P s) : ∃ t : State, Host.Core.run core n s = .next t ∧ P t := by
  induction n generalizing s with
  | zero => exact ⟨s, rfl, start⟩
  | succ n ih =>
    obtain ⟨u, steps, hu⟩ := progress s start
    obtain ⟨t, rest, ht⟩ := ih hu
    exact ⟨t, (run_succ_of_step n s u steps).trans rest, ht⟩

/-- A relation that lets the second machine follow each step of the first lets it follow any run. -/
theorem run_follows {R : State → State → Prop}
    (follows : ∀ s s' t, R s s' → step s = .next t → ∃ t', step s' = .next t' ∧ R t t') (n : Nat) {s s' t : State}
    (start : R s s') (runs : Host.Core.run core n s = .next t) :
    ∃ t' : State, Host.Core.run core n s' = .next t' ∧ R t t' := by
  induction n generalizing s s' with
  | zero => cases runs; exact ⟨s', rfl, start⟩
  | succ n ih =>
    obtain ⟨u, steps, rest⟩ := run_succ_next n s t runs
    obtain ⟨u', steps', hu⟩ := follows s s' u start steps
    obtain ⟨t', rest', ht⟩ := ih hu rest
    exact ⟨t', (run_succ_of_step n s' u' steps').trans rest', ht⟩

/-! ## Launched machines -/

/-- Being launched speaks of the image and the bound on the pc, which every step keeps. -/
theorem launched_of_step {s t : State} (launched : s.Launched) (steps : step s = .next t) : t.Launched := by
  obtain ⟨inv, populated⟩ := launched
  obtain ⟨himem, hmemSize, -⟩ := step_launch_frame steps
  exact ⟨step_inv inv steps, by rwa [State.Populated, himem, hmemSize]⟩

/-- A launched machine steps under the policy `continues`: Running, it finds a word in slot pc, and no word stops it. -/
theorem launched_safeStep {s : State} (launched : s.Launched) (policy : s.policy = .continues) : SafeStep s := by
  obtain ⟨-, populated⟩ := launched
  by_cases running : s.Running
  · obtain ⟨w, word⟩ := Option.isSome_iff_exists.mp (populated s.pc running)
    exact ⟨_, step_of_continues running word policy⟩
  · exact ⟨s, step_of_halted (Nat.le_of_not_lt running)⟩

/-- Where the word in slot pc is no jump, the step of a launched machine falls through. -/
theorem launched_step_of_no_jump {s : State} (launched : s.Launched) (policy : s.policy = .continues) (running : s.Running)
    (noJump : ∀ w, s.imem.read s.pc = some w → (decode w).isJump = false) :
    ∃ u, step s = .next u ∧ u.pc = s.pc + 1 := by
  obtain ⟨w, word⟩ := Option.isSome_iff_exists.mp (launched.2 s.pc running)
  exact ⟨_, step_of_continues running word policy, effect_pc_of_not_jump s (noJump w word)⟩

/-! ## Machines that differ in the outputs only -/

/-- The second state is the first but for RO, zero and the warning log. -/
def SameButOutputs (s s' : State) : Prop := ∃ o z ws, s' = { s with ro := o, zero := z, warnings := ws }

theorem sameButOutputs_effect {s s' : State} (same : SameButOutputs s s') (i : Instr) :
    SameButOutputs (effect s i) (effect s' i) := by
  obtain ⟨o, z, ws, rfl⟩ := same
  exact effect_with_outputs s o z ws i

/-- RO, zero and the log decide neither whether a step answers nor what it does to anything else. -/
theorem sameButOutputs_step {s s' t : State} (same : SameButOutputs s s') (steps : step s = .next t) :
    ∃ t', step s' = .next t' ∧ SameButOutputs t t' := by
  obtain ⟨halted, rfl⟩ | ⟨running, w, word, executes, rfl⟩ := step_effect_cases steps
  · refine ⟨s', step_of_halted ?_, same⟩
    obtain ⟨o, z, ws, rfl⟩ := same
    exact halted
  · refine ⟨effect s' (decode w), ?_, sameButOutputs_effect same _⟩
    obtain ⟨-, completes⟩ := (exec_next_iff _ s _).mp executes
    obtain ⟨o, z, ws, rfl⟩ := same
    exact (step_of_word (s := { s with ro := o, zero := z, warnings := ws }) running word).trans
      ((exec_next_iff _ _ _).mpr ⟨rfl, completes⟩)

/-! ## Running to completion -/

theorem runFrom_of_halted (k budget : Nat) {s : State} (halted : s.Halted) : runFrom k budget s = .final s k := by
  cases budget with
  | zero => exact if_pos halted
  | succ budget => exact if_pos halted

theorem runFrom_succ_of_step (k budget : Nat) {s u : State} (running : s.Running) (steps : step s = .next u) :
    runFrom k (budget + 1) s = runFrom (k + 1) budget u := by
  rw [runFrom, if_neg (Nat.not_le_of_lt running), steps]

/-- A run that ended in a final state was Halted at once, or made one step and went on from there. -/
theorem runFrom_final_cases {k budget n : Nat} {s t : State} (final : runFrom k budget s = .final t n) :
    (s.Halted ∧ t = s ∧ n = k) ∨
      ∃ b u, budget = b + 1 ∧ s.Running ∧ step s = .next u ∧ runFrom (k + 1) b u = .final t n := by
  by_cases halted : s.Halted
  · rw [runFrom_of_halted k budget halted] at final
    cases final
    exact .inl ⟨halted, rfl, rfl⟩
  · have running : s.Running := Nat.lt_of_not_le halted
    cases budget with
    | zero => simp [runFrom, halted] at final
    | succ b =>
      cases steps : step s with
      | next u => exact .inr ⟨b, u, rfl, running, rfl, by rwa [runFrom_succ_of_step k b running steps] at final⟩
      | fault f => simp [runFrom, halted, steps] at final
      | refused r => simp [runFrom, halted, steps] at final

/-- A final state is the one single steps reach, the core Running before each of them; `k` steps were counted before. -/
theorem run_of_runFrom_final {k budget n : Nat} {s t : State} (final : runFrom k budget s = .final t n) :
    ∃ m, n = k + m ∧ m ≤ budget ∧ Host.Core.run core m s = .next t ∧ t.Halted ∧
      ∀ i < m, ∃ u : State, Host.Core.run core i s = .next u ∧ u.Running := by
  induction budget generalizing k s with
  | zero =>
    obtain ⟨halted, rfl, rfl⟩ | ⟨b, u, budget, -⟩ := runFrom_final_cases final
    · exact ⟨0, rfl, le_rfl, rfl, halted, fun i hi => absurd hi (Nat.not_lt_zero i)⟩
    · cases budget
  | succ budget ih =>
    obtain ⟨halted, rfl, rfl⟩ | ⟨b, u, hb, running, steps, rest⟩ := runFrom_final_cases final
    · exact ⟨0, rfl, Nat.zero_le _, rfl, halted, fun i hi => absurd hi (Nat.not_lt_zero i)⟩
    · obtain rfl := Nat.succ.inj hb
      obtain ⟨m, rfl, hm, runs, halted, before⟩ := ih rest
      refine ⟨m + 1, by omega, by omega, (run_succ_of_step m s u steps).trans runs, halted, fun i hi => ?_⟩
      cases i with
      | zero => exact ⟨s, rfl, running⟩
      | succ i =>
        obtain ⟨v, hv, runningV⟩ := before i (by omega)
        exact ⟨v, (run_succ_of_step i s u steps).trans hv, runningV⟩

/-- Single steps that reach a Halted state are a complete run, of fewer steps where the last ones were made in Halted. -/
theorem runFrom_final_of_run {k n : Nat} {s t : State} (runs : Host.Core.run core n s = .next t) (halted : t.Halted) :
    ∃ m ≤ n, runFrom k n s = .final t (k + m) := by
  induction n generalizing k s with
  | zero => cases runs; exact ⟨0, le_rfl, runFrom_of_halted k 0 halted⟩
  | succ n ih =>
    by_cases already : s.Halted
    · obtain rfl : s = t := Host.Outcome.next.inj ((run_of_step_self (n + 1) s (step_of_halted already)).symm.trans runs)
      exact ⟨0, Nat.zero_le _, runFrom_of_halted k _ already⟩
    · obtain ⟨u, steps, rest⟩ := run_succ_next n s t runs
      obtain ⟨m, hm, final⟩ := ih (k := k + 1) rest
      refine ⟨m + 1, by omega, ?_⟩
      rw [runFrom_succ_of_step k n (Nat.lt_of_not_le already) steps, final, Nat.add_right_comm, Nat.add_assoc]

/-- Without a jump ahead each step of a launched machine leaves one slot less to the end of the memory. -/
theorem runFrom_of_no_jump (left : Nat) {k budget : Nat} {s : State} (launched : s.Launched)
    (policy : s.policy = .continues) (ends : s.pc + left = s.memSize)
    (noJump : ∀ a w, s.pc ≤ a → s.imem.read a = some w → (decode w).isJump = false) (enough : left ≤ budget) :
    ∃ t, runFrom k budget s = .final t (k + left) ∧ t.pc = s.memSize := by
  induction left generalizing k budget s with
  | zero => exact ⟨s, runFrom_of_halted k budget (show s.memSize ≤ s.pc by omega), by omega⟩
  | succ left ih =>
    have running : s.Running := by show s.pc < s.memSize; omega
    obtain ⟨u, steps, hpc⟩ := launched_step_of_no_jump launched policy running fun w => noJump s.pc w le_rfl
    obtain ⟨himem, hmemSize, hpolicy⟩ := step_launch_frame steps
    obtain ⟨budget, rfl⟩ : ∃ b, budget = b + 1 := ⟨budget - 1, by omega⟩
    obtain ⟨t, final, hpcT⟩ := ih (k := k + 1) (budget := budget) (launched_of_step launched steps)
      (hpolicy.trans policy) (by omega) (fun a w ha => himem ▸ noJump a w (by omega)) (by omega)
    refine ⟨t, ?_, hpcT.trans hmemSize⟩
    rw [runFrom_succ_of_step k budget running steps, final, Nat.add_right_comm, Nat.add_assoc]

end Sys2Proof.Machine

/-- Settles O40: being launched under `continues` lets every step answer and is kept by it. -/
theorem launchedRunNeverStops : Obligations.LaunchedRunNeverStops := by
  unfold Obligations.LaunchedRunNeverStops
  intro n s launched policy
  have progress : ∀ s : State, s.Launched ∧ s.policy = .continues →
      ∃ u, step s = .next u ∧ u.Launched ∧ u.policy = .continues := by
    intro s ⟨launched, policy⟩
    obtain ⟨u, steps⟩ := launched_safeStep launched policy
    obtain ⟨-, -, hpolicy⟩ := step_launch_frame steps
    exact ⟨u, steps, launched_of_step launched steps, hpolicy.trans policy⟩
  obtain ⟨t, runs, launchedT, policyT⟩ := run_progress progress n ⟨launched, policy⟩
  exact ⟨t, runs, launchedT, launched_safeStep launchedT policyT⟩

/-- Settles O39: no step changes them. -/
theorem runNeverChangesTheImage : Obligations.RunNeverChangesTheImage := by
  unfold Obligations.RunNeverChangesTheImage
  intro n s t runs
  refine run_keeps (P := fun u => u.imem = s.imem ∧ u.memSize = s.memSize ∧ u.policy = s.policy) ?_ n
    ⟨rfl, rfl, rfl⟩ runs
  intro u v ⟨himem, hmemSize, hpolicy⟩ steps
  obtain ⟨himem', hmemSize', hpolicy'⟩ := step_launch_frame steps
  exact ⟨himem'.trans himem, hmemSize'.trans hmemSize, hpolicy'.trans hpolicy⟩

/-- Settles O30: a machine with other outputs follows each step, and so the whole run. -/
theorem outputsNeverInfluenceTheRun : Obligations.OutputsNeverInfluenceTheRun := by
  unfold Obligations.OutputsNeverInfluenceTheRun
  intro n s t o z ws runs
  obtain ⟨u, runs', o', z', ws', rfl⟩ := run_follows (fun _ _ _ => sameButOutputs_step) n ⟨o, z, ws, rfl⟩ runs
  exact ⟨_, runs', rfl, rfl, rfl, rfl, rfl, rfl, rfl⟩

/-- Settles O31: a step in Halted is the identity. -/
theorem haltedIsTerminal : Obligations.HaltedIsTerminal := by
  unfold Obligations.HaltedIsTerminal
  intro n s halted
  exact run_of_step_self n s (step_of_halted halted)

/-- Settles O33: the step is the taken jump, and the target is the pc it stands at. -/
theorem selfJumpRunsForEver : Obligations.SelfJumpRunsForEver := by
  unfold Obligations.SelfJumpRunsForEver
  intro n s k w running word target jump
  have stays : s.jumpTo k = s := by rw [State.jumpTo_eq, target]
  refine run_of_step_self n s ?_
  rw [step_of_word running word]
  obtain j | ⟨jc, carry⟩ := jump
  · rw [j, exec_j, stays]
  · rw [jc, exec_jc_of_carry k s carry, stays]

/-- Settles O34: every step up to `MEM_SIZE` falls through, so the slots ahead are the steps to come. -/
theorem jumpFreeRunHaltsAtMemSize : Obligations.JumpFreeRunHaltsAtMemSize := by
  unfold Obligations.JumpFreeRunHaltsAtMemSize
  intro s budget launched policy inside noJump enough
  obtain ⟨t, final, hpc⟩ := runFrom_of_no_jump (s.memSize - s.pc) (k := 0) launched policy
    (Nat.add_sub_cancel' inside) noJump enough
  exact ⟨t, by rw [runToCompletion, final, Nat.zero_add], hpc⟩

/-- Settles O35: both directions are inductions over the budget, with the count of steps already made left open. -/
theorem completionMatchesSingleSteps : Obligations.CompletionMatchesSingleSteps := by
  unfold Obligations.CompletionMatchesSingleSteps
  intro budget n s t
  constructor
  · intro final
    obtain ⟨m, rfl, within⟩ := run_of_runFrom_final final
    rwa [Nat.zero_add]
  · intro runs halted
    obtain ⟨m, hm, final⟩ := runFrom_final_of_run (k := 0) runs halted
    exact ⟨m, hm, by rw [runToCompletion, final, Nat.zero_add]⟩

end

section
/-! Algebraic laws of the ALU functions (42_alu.md section 3), from what each answers as arithmetic (R100, R101). -/

open Sys2Proof Sys2Proof.Machine

namespace Sys2Proof.Machine

/-- Two outcomes agree when their results agree as numbers and their carries or borrows agree. -/
theorem outcome_ext {p q : Nibble × Bool} (result : p.1.toNat = q.1.toNat) (flag : p.2 = q.2) : p = q :=
  Prod.ext (BitVec.eq_of_toNat_eq result) flag

theorem toNat_zero_nibble : (0 : Nibble).toNat = 0 := rfl

theorem add4_comm (a b : Nibble) : add4 a b = add4 b a := by
  rw [add4, add4, Nat.add_comm]

theorem add4_zero (a : Nibble) : add4 a 0 = (a, false) := by
  have ha : a.toNat < 16 := a.isLt
  refine outcome_ext ?_ ?_
  · rw [add4_fst_toNat, toNat_zero_nibble, Nat.add_zero, Nat.mod_eq_of_lt ha]
  · rw [add4_snd, toNat_zero_nibble]
    exact decide_eq_false (by omega)

/-- A carry is seen in the result: it took 16 off a sum of two numbers below 16. -/
theorem add4_carry_iff (a b : Nibble) : (add4 a b).2 = true ↔ (add4 a b).1.toNat < a.toNat := by
  have ha : a.toNat < 16 := a.isLt
  have hb : b.toNat < 16 := b.isLt
  rw [add4_snd, add4_fst_toNat, decide_eq_true_iff]
  omega

theorem sub4_zero (a : Nibble) : sub4 a 0 = (a, false) := by
  have ha : a.toNat < 16 := a.isLt
  have value := sub4_fst_toNat a 0
  rw [toNat_zero_nibble] at value
  refine outcome_ext ?_ ?_
  · show (sub4 a 0).1.toNat = a.toNat
    omega
  · rw [sub4_snd, toNat_zero_nibble]
    exact decide_eq_false (Nat.not_lt_zero _)

theorem sub4_self (a : Nibble) : sub4 a a = (0, false) :=
  Prod.ext ((sub4_fst_eq_zero_iff a a).mpr rfl) (by rw [sub4_snd]; exact decide_eq_false (Nat.lt_irrefl _))

/-- The two's complement of a nibble as a number. -/
theorem twosComplement_toNat (b : Nibble) : (BitVec.ofNat 4 (16 - b.toNat)).toNat = (16 - b.toNat) % 16 :=
  BitVec.toNat_ofNat _ _

theorem zero_sub4 (b : Nibble) : sub4 0 b = (BitVec.ofNat 4 (16 - b.toNat), decide (b ≠ 0)) := by
  have hb : b.toNat < 16 := b.isLt
  have value := sub4_fst_toNat 0 b
  rw [toNat_zero_nibble] at value
  refine outcome_ext ?_ ?_
  · rw [twosComplement_toNat]
    omega
  · rw [sub4_snd, decide_eq_decide, ← BitVec.toNat_ne_iff_ne]
    exact Nat.pos_iff_ne_zero

/-- Adding what was subtracted gives the first operand back. -/
theorem add4_sub4_cancel (a b : Nibble) : (add4 (sub4 a b).1 b).1 = a := by
  have ha : a.toNat < 16 := a.isLt
  have hb : b.toNat < 16 := b.isLt
  have value := sub4_fst_toNat a b
  apply BitVec.eq_of_toNat_eq
  rw [add4_fst_toNat]
  omega

/-- The adder realisation of the subtractor: add the two's complement. -/
theorem sub4_fst_eq_add4 (a b : Nibble) : (sub4 a b).1 = (add4 a (BitVec.ofNat 4 (16 - b.toNat))).1 := by
  have hb : b.toNat < 16 := b.isLt
  have value := sub4_fst_toNat a b
  apply BitVec.eq_of_toNat_eq
  rw [add4_fst_toNat, twosComplement_toNat]
  omega

/-- In that realisation the borrow is the inverted carry, except for a subtrahend 0, which has no carry to invert. -/
theorem sub4_snd_eq_not_add4 (a b : Nibble) (nonzero : b ≠ 0) :
    (sub4 a b).2 = !(add4 a (BitVec.ofNat 4 (16 - b.toNat))).2 := by
  have ha : a.toNat < 16 := a.isLt
  have hb : b.toNat < 16 := b.isLt
  have positive : b.toNat ≠ 0 := BitVec.toNat_ne_iff_ne.mpr nonzero
  rw [sub4_snd, add4_snd, twosComplement_toNat, ← decide_not, decide_eq_decide]
  omega

end Sys2Proof.Machine

/-- Settles O15: one lemma for each law. -/
theorem aluLaws : Obligations.AluLaws := by
  unfold Obligations.AluLaws
  intro a b
  exact ⟨add4_comm a b, add4_zero a, sub4_zero a, sub4_self a, zero_sub4 b, add4_sub4_cancel a b, add4_carry_iff a b,
    add4_comm a b ▸ add4_carry_iff b a, sub4_fst_eq_add4 a b, sub4_snd_eq_not_add4 a b⟩

end

section
/-! Words and instructions compared in their effect: the pairs of 30_encoding.md section 2, jumps out of the memory
(43_control.md) and the unknown opcodes (44_unknown_opcodes.md). -/

open Sys2Proof Sys2Proof.Machine

namespace Sys2Proof.Machine

/-- An unknown opcode under `continues` (R120, R121): the whole next state. -/
theorem exec_of_unknown_continues {i : Instr} (unknown : i.isUnknown = true) {s : State} (policy : s.policy = .continues) :
    exec i s = .next { s with pc := s.pc + 1, warnings := s.warnings ++ [⟨s.pc, encode i⟩] } := by
  rw [exec_of_continues i policy, effect_of_unknown unknown, State.fallThrough_eq, State.warn]

/-- What 44_unknown_opcodes.md says of one unknown opcode: its words decode to it, and it warns and falls through. -/
theorem unknown_decodes_and_warns {i : Instr} (unknown : i.isUnknown = true) {s : State} (policy : s.policy = .continues) :
    decode (encode i) = i ∧
      exec i s = .next { s with pc := s.pc + 1, warnings := s.warnings ++ [⟨s.pc, encode i⟩] } :=
  ⟨Laws.decode_encode i, exec_of_unknown_continues unknown policy⟩

end Sys2Proof.Machine

/-- Settles O6: 0x50 and 0x61 load the constants that `RA=0` and `RB=1` write; of the other two only 0x70 is a jump. -/
theorem sameEffectWords : Obligations.SameEffectWords := by
  unfold Obligations.SameEffectWords
  intro s
  rw [show decode 0x00#8 = .clra 0 by decide, show decode 0x50#8 = .lda 0 by decide,
    show decode 0x10#8 = .oneb 0 by decide, show decode 0x61#8 = .ldb 1 by decide,
    show decode 0x40#8 = .noj 0 by decide, show decode 0x70#8 = .jc 0 by decide]
  exact ⟨by rw [exec_clra, exec_lda], by rw [exec_oneb, exec_ldb], ⟨_, exec_noj 0 s, s.fallThrough_pc⟩,
    fun carry => ⟨_, exec_jc_of_carry 0 s carry, s.jumpTo_pc 0⟩⟩

/-- Settles O20: the jump is performed as it stands, and its target is where the memory has ended. -/
theorem jumpOutOfMemoryHalts : Obligations.JumpOutOfMemoryHalts := by
  unfold Obligations.JumpOutOfMemoryHalts
  intro k s outside
  exact ⟨⟨_, exec_j k s, s.jumpTo_pc k, outside⟩, fun carry => ⟨_, exec_jc_of_carry k s carry, s.jumpTo_pc k, outside⟩⟩

/-- Settles O21: each of the seven words is the encoding of its unknown opcode. -/
theorem unknownOpcodeWarnsAndFallsThrough : Obligations.UnknownOpcodeWarnsAndFallsThrough := by
  unfold Obligations.UnknownOpcodeWarnsAndFallsThrough
  intro k s policy
  exact ⟨unknown_decodes_and_warns (i := .unk9 k) rfl policy, unknown_decodes_and_warns (i := .unkA k) rfl policy,
    unknown_decodes_and_warns (i := .unkB k) rfl policy, unknown_decodes_and_warns (i := .unkC k) rfl policy,
    unknown_decodes_and_warns (i := .unkD k) rfl policy, unknown_decodes_and_warns (i := .unkE k) rfl policy,
    unknown_decodes_and_warns (i := .unkF k) rfl policy⟩

/-- Settles O23: both fall through, and only the unknown opcode warns. -/
theorem unknownDiffersFromNojInWarningOnly : Obligations.UnknownDiffersFromNojInWarningOnly := by
  unfold Obligations.UnknownDiffersFromNojInWarningOnly
  intro i k s unknown policy
  exact ⟨_, _, exec_of_unknown_continues unknown policy, exec_noj k s, rfl⟩

end

section
/-! Reset, host moves and launch (10_state.md section 7, 70_reset_and_hazards.md sections 1 and 2). -/

open Sys2Proof Sys2Proof.Machine

namespace Sys2Proof.Machine

theorem launchWords_of_length {memSize : Nat} (policy : UnknownOpcodePolicy) {words : List Byte}
    (length : words.length = memSize) :
    launchWords memSize policy words = .ok (launchState memSize policy words) := if_pos length

theorem launchWords_of_length_ne {memSize : Nat} (policy : UnknownOpcodePolicy) {words : List Byte}
    (length : words.length ≠ memSize) : launchWords memSize policy words = .error .imageLength := if_neg length

/-- The a-th word of the image stands in slot a, and there is no other slot. -/
theorem launchState_read (memSize : Nat) (policy : UnknownOpcodePolicy) (words : List Byte) (a : Nat) :
    (launchState memSize policy words).imem.read a = words[a]? := by
  have := Memory.read_ofWords words 0 a
  rwa [Nat.zero_add] at this

/-- With one word for each slot the reset state with the image is launched. -/
theorem launchState_launched (policy : UnknownOpcodePolicy) (words : List Byte) :
    (launchState words.length policy words).Launched := by
  refine ⟨⟨⟨Memory.wf_ofWords words 0, fun c hc => ?_⟩, Nat.zero_le _⟩, fun a ha => ?_⟩
  · obtain ⟨-, below⟩ := Memory.mem_ofWords words 0 c hc
    rwa [Nat.zero_add] at below
  · rw [launchState_read, List.getElem?_eq_getElem ha, Option.isSome_some]

end Sys2Proof.Machine

/-- Settles O36: the memory lists nothing, and the pc is 0. -/
theorem resetMeetsInvariant : Obligations.ResetMeetsInvariant := by
  unfold Obligations.ResetMeetsInvariant
  exact ⟨⟨rfl, fun c hc => absurd hc List.not_mem_nil⟩, Nat.zero_le _⟩

/-- Settles O42: after reset the pc is 0, which is below `MEM_SIZE` unless that is 0 too. -/
theorem runStateAfterReset : Obligations.RunStateAfterReset := by
  unfold Obligations.RunStateAfterReset
  intro s
  exact ⟨fun nonempty => nonempty, fun empty => Nat.le_of_eq empty⟩

/-- Settles O44: `hostCycle` asks for reset first, and the port needs a step request without one. -/
theorem resetDominatesStepRequest : Obligations.ResetDominatesStepRequest := by
  unfold Obligations.ResetDominatesStepRequest
  intro s b
  exact ⟨rfl, rfl, rfl, rfl, by cases b <;> rfl⟩

/-- Settles O46: the length decides, and the state launched with as many words as slots reads as the image. -/
theorem launchLoadsTheImage : Obligations.LaunchLoadsTheImage := by
  unfold Obligations.LaunchLoadsTheImage
  intro memSize policy words
  refine ⟨launchWords_of_length_ne policy, ?_⟩
  rintro rfl
  exact ⟨_, launchWords_of_length policy rfl, launchState_launched policy words, rfl, launchState_read _ policy words⟩

end

section
/-! The assembler's lines (30_encoding.md section 3): the numeral of an immediate, the patterns as lines, and the
round trip between the two, from which the grammar, the range and the listing follow. -/

open Sys2Proof Sys2Proof.Machine

namespace Sys2Proof.Machine

/-! ## The decimal immediate (R56, R59) -/

theorem digitValue_digitText : ∀ n < 10, digitValue (digitText n) = some n := by decide

/-- A decimal digit is the character that its value names. -/
theorem digitValue_eq_some_iff (c : Char) (n : Nat) : digitValue c = some n ↔ n < 10 ∧ c = digitText n := by
  constructor
  · intro value
    by_cases digit : c.isDigit = true
    · have range := Char.isDigit_iff_toNat.mp digit
      have zero : '0'.toNat = 48 := rfl
      have nine : '9'.toNat = 57 := rfl
      obtain rfl : c.toNat - '0'.toNat = n := by simpa [digitValue, digit] using value
      refine ⟨by omega, ?_⟩
      rw [digitText, Nat.add_sub_cancel' range.1, Char.ofNat_toNat]
    · simp [digitValue, digit] at value
  · rintro ⟨bound, rfl⟩
    exact digitValue_digitText n bound

theorem immText_of_lt {n : Nat} (bound : n < 10) : immText (BitVec.ofNat 4 n) = [digitText n] := by
  rw [immText, BitVec.toNat_ofNat, Nat.mod_eq_of_lt (by omega), if_pos bound]

theorem immText_of_teen {n : Nat} (bound : n ≤ 5) : immText (BitVec.ofNat 4 (10 + n)) = ['1', digitText n] := by
  rw [immText, BitVec.toNat_ofNat, Nat.mod_eq_of_lt (by omega), if_neg (by omega), Nat.add_sub_cancel_left]

theorem parseImm_immText : ∀ k : Nibble, parseImm (immText k) = some k := by decide

/-- Only the numeral of an immediate reads as it: one digit, or two digits of which the first is 1. -/
theorem parseImm_eq_some_iff (l : Line) (k : Nibble) : parseImm l = some k ↔ l = immText k := by
  refine ⟨fun reads => ?_, fun text => text ▸ parseImm_immText k⟩
  match l with
  | [] => cases reads
  | [d] =>
    obtain ⟨n, digit, rfl⟩ := Option.map_eq_some_iff.mp reads
    obtain ⟨bound, rfl⟩ := (digitValue_eq_some_iff d n).mp digit
    exact (immText_of_lt bound).symm
  | [d, e] =>
    rw [parseImm] at reads
    split at reads
    · next x y first second =>
      obtain ⟨⟨nonzero, bound⟩, value⟩ := Option.ite_none_right_eq_some.mp reads
      obtain rfl := Option.some.inj value
      obtain ⟨-, rfl⟩ := (digitValue_eq_some_iff d x).mp first
      obtain ⟨-, rfl⟩ := (digitValue_eq_some_iff e y).mp second
      obtain rfl : x = 1 := by omega
      exact (immText_of_teen (by omega)).symm
    · cases reads
  | _ :: _ :: _ :: _ => cases reads

/-- The numeral as the library writes it. -/
theorem immText_eq_toDigits : ∀ k : Nibble, immText k = Nat.toDigits 10 k.toNat := by decide +kernel

theorem immText_any_isWhitespace : ∀ k : Nibble, (immText k).any Char.isWhitespace = false := by decide

/-! ## The patterns (R56, R57) -/

theorem immPattern_eq_some_iff (fixed : Line) (make : Nibble → Instr) (l : Line) (i : Instr) :
    immPattern fixed make l = some i ↔ ∃ k, l = fixed ++ immText k ∧ make k = i := by
  simp [immPattern, Option.map_eq_some_iff, Option.bind_eq_some_iff, afterPattern_eq_some_iff, parseImm_eq_some_iff]

/-- What a line matches is an instruction whose mnemonic it is: an immediate pattern is tried after the fixed forms, so
none of the three immediates without a mnemonic is left for it. -/
theorem mnemonicText_of_matchLine {l : Line} {i : Instr} (matched : matchLine l = some i) : mnemonicText i = some l := by
  rw [mnemonicText_eq_some_iff]
  unfold matchLine at matched
  split at matched
  · next text => cases matched; exact ⟨rfl, text ▸ rfl⟩
  split at matched
  · next text => cases matched; exact ⟨rfl, text ▸ rfl⟩
  split at matched
  · next text => cases matched; exact ⟨rfl, text ▸ rfl⟩
  split at matched
  · next text => cases matched; exact ⟨rfl, text ▸ rfl⟩
  split at matched
  · next text => cases matched; exact ⟨rfl, text ▸ rfl⟩
  next notClra notOneb notOuta notAddb notNoj =>
  simp only [Option.or_eq_some_iff, immPattern_eq_some_iff] at matched
  obtain ⟨k, rfl, rfl⟩ | ⟨-, ⟨k, rfl, rfl⟩ | ⟨-, ⟨k, rfl, rfl⟩ | ⟨-, k, rfl, rfl⟩⟩⟩ := matched
  · exact ⟨bne_iff_ne.mpr fun zero => notClra (zero ▸ rfl), rfl⟩
  · exact ⟨bne_iff_ne.mpr fun one => notOneb (one ▸ rfl), rfl⟩
  · exact ⟨bne_iff_ne.mpr fun zero => notNoj (zero ▸ rfl), rfl⟩
  · exact ⟨rfl, rfl⟩

/-- A mnemonic matches its own instruction: computed for every instruction that has one. -/
theorem matchLine_of_mnemonicText {l : Line} {i : Instr} (mnemonic : mnemonicText i = some l) : matchLine l = some i := by
  obtain ⟨assemblable, text⟩ := (mnemonicText_eq_some_iff i l).mp mnemonic
  cases i with
  | clra k | oneb k | outa k | addb k | noj k =>
    obtain rfl : k = 0 := beq_iff_eq.mp assemblable
    cases text
    rfl
  | lda k | ldb k | jc k | j k =>
    cases text
    revert k
    decide
  | _ => cases assemblable

theorem matchLine_eq_some_iff (l : Line) (i : Instr) : matchLine l = some i ↔ mnemonicText i = some l :=
  ⟨mnemonicText_of_matchLine, matchLine_of_mnemonicText⟩

/-! ## The encoder (R55, R60) -/

/-- A line encodes to a word iff, trimmed, it is the mnemonic of the word's instruction. -/
theorem encodeLine_eq_ok_iff (l : Line) (w : Byte) :
    encodeLine l = .ok w ↔ mnemonicText (decode w) = some (trim l) := by
  rw [← matchLine_eq_some_iff, encodeLine]
  cases matched : matchLine (trim l) with
  | none => simp
  | some i => simp [Laws.encode_eq_iff_eq_decode]

theorem dropWhile_isWhitespace_eq_self {l : Line} (noWhitespace : l.any Char.isWhitespace = false) :
    l.dropWhile Char.isWhitespace = l :=
  List.dropWhile_eq_self_iff.mpr fun hl => List.any_eq_false.mp noWhitespace _ (List.getElem_mem hl)

theorem trim_of_no_whitespace {l : Line} (noWhitespace : l.any Char.isWhitespace = false) : trim l = l := by
  rw [trim, dropWhile_isWhitespace_eq_self noWhitespace,
    dropWhile_isWhitespace_eq_self (List.any_reverse.trans noWhitespace), List.reverse_reverse]

/-- No pattern has whitespace in it (R59). -/
theorem trim_of_patternText {l : Line} {i : Instr} (text : patternText i = some l) : trim l = l := by
  apply trim_of_no_whitespace
  cases i with
  | clra k | oneb k | outa k | addb k | noj k => cases text; rfl
  | lda k | ldb k | jc k | j k =>
    cases text
    rw [List.any_append, immText_any_isWhitespace, Bool.or_false]
    rfl
  | _ => cases text

theorem encodeLine_of_mnemonicText {l : Line} {i : Instr} (mnemonic : mnemonicText i = some l) :
    encodeLine l = .ok (encode i) := by
  obtain ⟨-, text⟩ := (mnemonicText_eq_some_iff i l).mp mnemonic
  rw [encodeLine_eq_ok_iff, Laws.decode_encode, trim_of_patternText text, mnemonic]

theorem assemblable_of_encodeLine {l : Line} {w : Byte} (encodes : encodeLine l = .ok w) :
    (decode w).assemblable = true :=
  ((mnemonicText_eq_some_iff _ _).mp ((encodeLine_eq_ok_iff l w).mp encodes)).1

theorem exists_mnemonicText {i : Instr} (assemblable : i.assemblable = true) : ∃ l, mnemonicText i = some l := by
  rw [mnemonicText, if_pos assemblable]
  cases i with
  | unk9 k | unkA k | unkB k | unkC k | unkD k | unkE k | unkF k => cases assemblable
  | _ => exact ⟨_, rfl⟩

/-! ## The listing (R62, log entry 24) -/

theorem isBinary_of_mem_imageLine {w : Byte} {c : Char} (hc : c ∈ imageLine w) : c = '0' ∨ c = '1' := by
  obtain ⟨b, -, rfl⟩ := List.mem_map.mp hc
  cases b
  · exact .inl rfl
  · exact .inr rfl

theorem trim_imageLine (w : Byte) : trim (imageLine w) = imageLine w := by
  refine trim_of_no_whitespace (List.any_eq_false.mpr fun c hc => ?_)
  obtain rfl | rfl := isBinary_of_mem_imageLine hc <;> decide

/-- Every pattern begins with a letter. -/
theorem head_of_patternText {l : Line} {i : Instr} (text : patternText i = some l) : 'R' ∈ l ∨ 'J' ∈ l := by
  cases i with
  | clra k | oneb k | outa k | addb k | lda k | ldb k => cases text; exact .inl List.mem_cons_self
  | noj k | jc k | j k => cases text; exact .inr List.mem_cons_self
  | _ => cases text

/-- No image line encodes: it has no letter. -/
theorem encodeLine_imageLine_ne_ok (w v : Byte) : encodeLine (imageLine w) ≠ .ok v := by
  rw [ne_eq, encodeLine_eq_ok_iff, trim_imageLine, mnemonicText_eq_some_iff]
  rintro ⟨-, text⟩
  obtain letter | letter := head_of_patternText text
  · exact absurd (isBinary_of_mem_imageLine letter) (by decide)
  · exact absurd (isBinary_of_mem_imageLine letter) (by decide)

/-- A listed line encodes iff the instruction has a mnemonic, and then to its word. -/
theorem encodeLine_listingLine_iff (i : Instr) (w : Byte) :
    encodeLine (listingLine i) = .ok w ↔ i.assemblable = true ∧ w = encode i := by
  cases assemblable : i.assemblable with
  | false => simp [listingLine_of_not_assemblable i assemblable, encodeLine_imageLine_ne_ok]
  | true =>
    obtain ⟨l, mnemonic⟩ := exists_mnemonicText assemblable
    simp [listingLine_of_mnemonicText i l mnemonic, encodeLine_of_mnemonicText mnemonic, eq_comm]

/-! ## The forms with an ignored operand (R49, R50) -/

theorem fixedForm_cases {i : Instr} (fixed : i.opcode.toNat ≤ 4) :
    ∃ k, i = .clra k ∨ i = .oneb k ∨ i = .outa k ∨ i = .addb k ∨ i = .noj k := by
  cases i with
  | clra k | oneb k | outa k | addb k | noj k => exact ⟨k, by simp⟩
  | _ => simp [Instr.opcode] at fixed

theorem exec_fixedForm_ignores_operand {i : Instr} (fixed : i.opcode.toNat ≤ 4) (k : Nibble) (s : State) :
    exec i s = exec (instrOf i.opcode k) s := by
  obtain ⟨k', rfl | rfl | rfl | rfl | rfl⟩ := fixedForm_cases fixed <;> simp [instrOf, Instr.opcode]

theorem isUnknown_of_fixedForm {i : Instr} (fixed : i.opcode.toNat ≤ 4) : i.isUnknown = false := by
  obtain ⟨k, rfl | rfl | rfl | rfl | rfl⟩ := fixedForm_cases fixed <;> rfl

theorem operand_of_assemblable_fixedForm {i : Instr} (fixed : i.opcode.toNat ≤ 4) (assemblable : i.assemblable = true) :
    i.operand = 0 := by
  obtain ⟨k, rfl | rfl | rfl | rfl | rfl⟩ := fixedForm_cases fixed <;> exact beq_iff_eq.mp assemblable

end Sys2Proof.Machine

/-- Settles O5: the five meanings do not mention the operand, and a mnemonic of theirs has operand 0. -/
theorem operandIgnoredByFixedForms : Obligations.OperandIgnoredByFixedForms := by
  unfold Obligations.OperandIgnoredByFixedForms
  intro w opcode
  have fixed : (decode w).opcode.toNat ≤ 4 := by rwa [Laws.decode_opcode]
  have known := isUnknown_of_fixedForm fixed
  refine ⟨fun k s => ?_, fun s => ⟨_, exec_of_known known s, effect_warnings_of_known known s⟩, fun nonzero l encodes => ?_⟩
  · rw [Laws.decode_wordOf, ← Laws.decode_opcode]
    exact exec_fixedForm_ignores_operand fixed k s
  · refine nonzero ?_
    rw [← Laws.decode_operand]
    exact operand_of_assemblable_fixedForm fixed (assemblable_of_encodeLine encodes)

/-- Settles O48: a word's mnemonic yields it, and no line yields a word without one. -/
theorem encoderRange : Obligations.EncoderRange := by
  unfold Obligations.EncoderRange
  refine ⟨fun w => ⟨fun ⟨l, encodes⟩ => assemblable_of_encodeLine encodes, fun assemblable => ?_⟩, by decide +kernel⟩
  obtain ⟨l, mnemonic⟩ := exists_mnemonicText assemblable
  exact ⟨l, by rw [encodeLine_of_mnemonicText mnemonic, Laws.encode_decode]⟩

/-- Settles O49: the mnemonic round trip, and the three filled-in patterns that are another instruction's mnemonic. -/
theorem mnemonicRoundTrip : Obligations.MnemonicRoundTrip := by
  unfold Obligations.MnemonicRoundTrip
  refine ⟨fun i assemblable => ?_, ⟨_, rfl, rfl, fun s => ?_⟩, ⟨_, rfl, rfl, fun s => ?_⟩, ⟨_, rfl, rfl, ?_⟩⟩
  · obtain ⟨l, mnemonic⟩ := exists_mnemonicText assemblable
    exact ⟨l, mnemonic, encodeLine_of_mnemonicText mnemonic, Laws.decode_encode i⟩
  · rw [show decode 0x00#8 = .clra 0 by decide, exec_clra, exec_lda]
  · rw [show decode 0x10#8 = .oneb 0 by decide, exec_oneb, exec_ldb]
  · exact ⟨{ State.reset with carry := true }, _, _, rfl, rfl, by decide⟩

/-- Settles O50: a listed line is a mnemonic, which encodes to its instruction's word, or an image line, which does not
encode. -/
theorem listingNamesNoOtherWord : Obligations.ListingNamesNoOtherWord := by
  unfold Obligations.ListingNamesNoOtherWord
  refine ⟨fun i w encodes => ((encodeLine_listingLine_iff i w).mp encodes).2, fun i => ?_, rfl, by decide⟩
  simp [encodeLine_listingLine_iff]

/-- Settles O51: in each of the three cases both lists decide on the first line by itself. -/
theorem assembleTakesEncodingLines : Obligations.AssembleTakesEncodingLines := by
  unfold Obligations.AssembleTakesEncodingLines
  intro l rest
  refine ⟨fun w encodes => ?_, fun blank => ?_, fun refused nonblank => ?_⟩
  · simp [assemble, refusedLines, encodes]
  · have refused : encodeLine l = .error .invalidInstruction := by rw [encodeLine, blank]; rfl
    simp [assemble, refusedLines, refused, blank]
  · simp [assemble, refusedLines, refused, nonblank]

end

section
/-! The grammar of a mnemonic line (30_encoding.md section 3): the nine patterns written out, with the word of each. -/

open Sys2Proof Sys2Proof.Machine

namespace Sys2Proof.Machine

/-- A line encodes iff, trimmed, it is the pattern of an assemblable instruction, and then to its word. -/
theorem encodeLine_eq_ok_iff_exists (l : Line) (w : Byte) :
    encodeLine l = .ok w ↔ ∃ i : Instr, i.assemblable = true ∧ patternText i = some (trim l) ∧ w = encode i := by
  rw [encodeLine_eq_ok_iff, mnemonicText_eq_some_iff]
  constructor
  · rintro ⟨assemblable, text⟩
    exact ⟨decode w, assemblable, text, (Laws.encode_decode w).symm⟩
  · rintro ⟨i, assemblable, text, rfl⟩
    rw [Laws.decode_encode]
    exact ⟨assemblable, text⟩

/-- The assemblable instructions, one constructor after the other (R57, R58). -/
theorem exists_assemblable_iff {P : Instr → Prop} :
    (∃ i : Instr, i.assemblable = true ∧ P i) ↔
      P (.clra 0) ∨ P (.oneb 0) ∨ P (.outa 0) ∨ P (.addb 0) ∨ P (.noj 0) ∨
        ∃ k, (k ≠ 0 ∧ P (.lda k)) ∨ (k ≠ 1 ∧ P (.ldb k)) ∨ (k ≠ 0 ∧ P (.jc k)) ∨ P (.j k) := by
  constructor
  · rintro ⟨i, assemblable, holds⟩
    cases i with
    | clra k | oneb k | outa k | addb k | noj k =>
      obtain rfl : k = 0 := beq_iff_eq.mp assemblable
      simp only [holds, true_or, or_true]
    | lda k | ldb k | jc k =>
      refine .inr (.inr (.inr (.inr (.inr ⟨k, ?_⟩))))
      simp only [holds, bne_iff_ne.mp assemblable, ne_eq, not_false_eq_true, and_true, true_or, or_true]
    | j k => exact .inr (.inr (.inr (.inr (.inr ⟨k, .inr (.inr (.inr holds))⟩))))
    | _ => cases assemblable
  · rintro (holds | holds | holds | holds | holds | ⟨k, ⟨other, holds⟩ | ⟨other, holds⟩ | ⟨other, holds⟩ | holds⟩)
    · exact ⟨_, rfl, holds⟩
    · exact ⟨_, rfl, holds⟩
    · exact ⟨_, rfl, holds⟩
    · exact ⟨_, rfl, holds⟩
    · exact ⟨_, rfl, holds⟩
    · exact ⟨.lda k, bne_iff_ne.mpr other, holds⟩
    · exact ⟨.ldb k, bne_iff_ne.mpr other, holds⟩
    · exact ⟨.jc k, bne_iff_ne.mpr other, holds⟩
    · exact ⟨_, rfl, holds⟩

/-- The immediates 0 to 15 are the values of a nibble. -/
theorem exists_le_fifteen_iff {P : Nat → Prop} : (∃ n : Nat, n ≤ 15 ∧ P n) ↔ ∃ k : Nibble, P k.toNat := by
  constructor
  · rintro ⟨n, bound, holds⟩
    refine ⟨BitVec.ofNat 4 n, ?_⟩
    rwa [BitVec.toNat_ofNat, Nat.mod_eq_of_lt (by omega)]
  · rintro ⟨k, holds⟩
    exact ⟨k.toNat, Nat.le_of_lt_succ k.isLt, holds⟩

theorem fixed_line_iff (i : Instr) {text : Line} (pattern : patternText i = some text) (l : Line) (w : Byte) :
    (patternText i = some l ∧ w = encode i) ↔ (l = text ∧ w = encode i) := by
  rw [pattern, Option.some.injEq, eq_comm (a := text)]

/-- An immediate form's line and word in numbers: the numeral of the operand, and `16*op + k` (R46). -/
theorem immediate_line_iff (i : Instr) {fixed : Line} (pattern : patternText i = some (fixed ++ immText i.operand))
    (l : Line) (w : Byte) :
    (patternText i = some l ∧ w = encode i) ↔
      (l = fixed ++ Nat.toDigits 10 i.operand.toNat ∧ w.toNat = 16 * i.opcode.toNat + i.operand.toNat) := by
  rw [fixed_line_iff i pattern, immText_eq_toDigits, ← BitVec.toNat_inj, encode, Laws.wordOf_toNat]

end Sys2Proof.Machine

/-- Settles O47: the assemblable instructions by constructor, each with its pattern and its word. -/
theorem encoderGrammar : Obligations.EncoderGrammar := by
  unfold Obligations.EncoderGrammar
  intro l w
  rw [encodeLine_eq_ok_iff_exists, exists_assemblable_iff, exists_le_fifteen_iff]
  refine or_congr (fixed_line_iff (.clra 0) rfl _ w) <| or_congr (fixed_line_iff (.oneb 0) rfl _ w) <|
    or_congr (fixed_line_iff (.outa 0) rfl _ w) <| or_congr (fixed_line_iff (.addb 0) rfl _ w) <|
    or_congr (fixed_line_iff (.noj 0) rfl _ w) <| exists_congr fun k => ?_
  exact or_congr (and_congr BitVec.toNat_ne_iff_ne.symm (immediate_line_iff (.lda k) rfl _ w)) <|
    or_congr (and_congr BitVec.toNat_ne_iff_ne.symm (immediate_line_iff (.ldb k) rfl _ w)) <|
    or_congr (and_congr BitVec.toNat_ne_iff_ne.symm (immediate_line_iff (.jc k) rfl _ w)) <|
    immediate_line_iff (.j k) rfl _ w

end

section
/-! The text image format (30_encoding.md section 4): a word as its bits, its line and its newline-terminated line, each
read back as the word and as nothing else. -/

open Sys2Proof Sys2Proof.Machine

namespace Sys2Proof.Laws

/-- Reading back what was written entry by entry. -/
theorem mapM_map_eq_some {α β : Type} {f : α → Option β} {g : β → α} (back : ∀ y, f (g y) = some y) (ys : List β) :
    (ys.map g).mapM f = some ys :=
  mapM_eq_some_iff.mpr (List.forall₂_map_left_iff.mpr (List.forall₂_same.mpr fun y _ => back y))

end Sys2Proof.Laws

namespace Sys2Proof.Machine

theorem charBit_bitChar (b : Bool) : charBit (bitChar b) = some b := by
  cases b <;> rfl

theorem charBit_eq_some_iff (c : Char) (b : Bool) : charBit c = some b ↔ c = bitChar b := by
  refine ⟨fun reads => ?_, fun h => h ▸ charBit_bitChar b⟩
  obtain rfl | rfl := binary_of_charBit reads
  · cases reads; rfl
  · cases reads; rfl

theorem rawOfLine_eq_some_iff (l : Line) (r : RawWord) : rawOfLine l = some r ↔ l = r.map bitChar := by
  simp only [rawOfLine, Laws.mapM_eq_some_iff, charBit_eq_some_iff]
  rw [← List.forall₂_map_right_iff (R := Eq), List.forall₂_eq_eq_eq]

/-- Bits read most significant first: each bit of the value is the one that stands as far from the end. -/
theorem testBit_bitsValue_reverse (r : RawWord) (i : Nat) : (bitsValue r.reverse).testBit i = r[i]?.getD false := by
  induction r generalizing i with
  | nil => simp [bitsValue]
  | cons b r ih =>
    have value : bitsValue (b :: r).reverse = Nat.bit b (bitsValue r.reverse) := by
      simp [bitsValue, Nat.bit_val]
    rw [value]
    cases i with
    | zero => rw [Nat.testBit_bit_zero]; rfl
    | succ i => rw [Nat.testBit_bit_succ, ih]; rfl

theorem wordBits_ofNat_bitsValue {r : RawWord} (width : r.length = 8) :
    wordBits (BitVec.ofNat 8 (bitsValue r)) = r := by
  obtain ⟨b7, b6, b5, b4, b3, b2, b1, b0, rfl⟩ :
      ∃ b7 b6 b5 b4 b3 b2 b1 b0 : Bool, r = [b7, b6, b5, b4, b3, b2, b1, b0] := by
    match r, width with
    | [b7, b6, b5, b4, b3, b2, b1, b0], _ => exact ⟨b7, b6, b5, b4, b3, b2, b1, b0, rfl⟩
  have bit := testBit_bitsValue_reverse [b0, b1, b2, b3, b4, b5, b6, b7]
  simp only [List.reverse_cons, List.reverse_nil, List.nil_append, List.cons_append] at bit
  simp only [wordBits, BitVec.getLsbD_ofNat, bit]
  rfl

theorem wordBits_injective : Function.Injective wordBits := by
  intro v w bits
  simp only [wordBits, List.cons.injEq, and_true] at bits
  obtain ⟨h7, h6, h5, h4, h3, h2, h1, h0⟩ := bits
  apply BitVec.eq_of_getLsbD_eq
  intro i hi
  interval_cases i <;> assumption

/-- A raw word is a word iff it is the word's eight bits (R152). -/
theorem checkWord_eq_some_iff (r : RawWord) (w : Byte) : checkWord r = some w ↔ r = wordBits w := by
  constructor
  · intro reads
    have width := length_of_checkWord reads
    rw [checkWord, if_pos width] at reads
    rw [← Option.some.inj reads, wordBits_ofNat_bitsValue width]
  · rintro rfl
    have width : (wordBits w).length = 8 := rfl
    rw [checkWord, if_pos width, wordBits_injective (wordBits_ofNat_bitsValue width)]

theorem parseImageLine_eq_some_iff (l : Line) (w : Byte) : parseImageLine l = some w ↔ l = imageLine w := by
  simp [parseImageLine, Option.bind_eq_some_iff, checkWord_eq_some_iff, rawOfLine_eq_some_iff, imageLine]

/-! ## Texts of newline-terminated lines (R63) -/

theorem textLines_cons_line {l : Line} (oneLine : '\n' ∉ l) {text : List Char} {lines : List Line}
    (rest : textLines text = some lines) : textLines (l ++ '\n' :: text) = some (l :: lines) := by
  induction l with
  | nil => simp [textLines, rest]
  | cons c l ih =>
    have first : c ≠ '\n' := (List.ne_of_not_mem_cons oneLine).symm
    have others := ih (List.not_mem_of_not_mem_cons oneLine)
    simp [textLines, others, first]

theorem newline_not_mem_imageLine (w : Byte) : '\n' ∉ imageLine w := fun h =>
  absurd (isBinary_of_mem_imageLine h) (by decide)

/-- The text of an image is the lines of its words, in order. -/
theorem textLines_imageText (words : List Byte) : textLines (imageText words) = some (words.map imageLine) := by
  induction words with
  | nil => rfl
  | cons w words ih =>
    rw [imageText, List.flatMap_cons, List.append_assoc]
    exact textLines_cons_line (newline_not_mem_imageLine w) ih

/-! ## The three forms of an image at a launch -/

theorem launch_wordBits (memSize : Nat) (policy : UnknownOpcodePolicy) (words : List Byte) :
    launch memSize policy (words.map wordBits) = launchWords memSize policy words := by
  rw [launch, Laws.mapM_map_eq_some fun w => (checkWord_eq_some_iff _ w).mpr rfl]

theorem launchText_imageLine (memSize : Nat) (policy : UnknownOpcodePolicy) (words : List Byte) :
    launchText memSize policy (words.map imageLine) = launchWords memSize policy words := by
  rw [launchText, Laws.mapM_map_eq_some fun w => (parseImageLine_eq_some_iff _ w).mpr rfl]

theorem launchImageText_imageText (memSize : Nat) (policy : UnknownOpcodePolicy) (words : List Byte) :
    launchImageText memSize policy (imageText words) = launchWords memSize policy words := by
  rw [launchImageText, textLines_imageText]
  exact launchText_imageLine memSize policy words

end Sys2Proof.Machine

/-- Settles O52: a line reads as bits iff it is their characters, and bits as a word iff they are the word's. -/
theorem imageLineIsTheWord : Obligations.ImageLineIsTheWord := by
  unfold Obligations.ImageLineIsTheWord
  exact parseImageLine_eq_some_iff

/-- Settles O53: every word is read back from each of its three written forms. -/
theorem imageFormsLaunchAlike : Obligations.ImageFormsLaunchAlike := by
  unfold Obligations.ImageFormsLaunchAlike
  intro memSize policy words
  exact ⟨launch_wordBits memSize policy words, launchText_imageLine memSize policy words,
    launchImageText_imageText memSize policy words⟩

end
